-- ==== Sys2Proof/Word.lean ====
section
/-! DEFINITION. The word types of the core: every value is an unsigned integer of a stated width
(spec/00_scope.md R4, R5). -/

namespace Sys2Proof

/-- A byte: a general register or a memory cell (XLEN = 8, R4). -/
abbrev Byte := BitVec 8

/-- A 16-bit word: an opcode, `info`, and what the 16-bit registers `pc` and `stk[i]` read as (R4). -/
abbrev Word := BitVec 16

/-- A value of the program counter or of a call-stack slot, 0 to 0x1000: values above are not states of the machine
and have no term here (R14, R17, decision D17; notes/assumptions/4.md). -/
abbrev PcValue := Fin 0x1001

/-- The 12-bit address operand `nnn`, and the addresses of memory (ADDRBITS = 12, R4). -/
abbrev Addr := BitVec 12

/-- A 4-bit field of an opcode (R46). -/
abbrev Nibble := BitVec 4

/-- The index of a general register, 0 to 15 (R10). -/
abbrev RegIx := Fin 16

/-- The index of a call-stack slot, 0 to 15 (R15). -/
abbrev SlotIx := Fin 16

end Sys2Proof
end

