-- ==== Sys2Proof/Syntax.lean ====
section
/-! DEFINITION. The instructions: one constructor per row of spec/opcode_table.json
(spec/30_encoding.md R49: "these four instructions and no others"). -/

namespace Sys2Proof

/-- The instruction set (R49). Every register index 0 to 15 and every 12-bit address is a valid operand (R48), so
every term is meaningful. -/
inductive Instr where
  /-- HALT, opcode 0x0000 (R75). -/
  | halt
  /-- RETURN, opcode 0x00EE (R79). -/
  | ret
  /-- CALL nnn, opcode 0x2nnn (R78). -/
  | call (nnn : Addr)
  /-- ADD rx, ry, opcode 0x8xy4 (R85). -/
  | add (x y : RegIx)
deriving DecidableEq, Repr

end Sys2Proof
end

