-- ==== Sys2Proof/Decode.lean ====
section
/-! DEFINITION. The encoding: byte order, fields, the opcode table, the decoder (total, rejecting by name) and the
encoder (spec/30_encoding.md R45 to R53, spec/40_fetch_decode_dispatch.md R63). -/

namespace Sys2Proof

/-- `hi ## lo`: the byte at the lower address is the more significant one (R34, R45). -/
def joinBytes (hi lo : Byte) : Word := hi ++ lo

/-- The byte of a word that stands at the lower address, `op[15:8]` (R45). -/
def hiByte (op : Word) : Byte := op.extractLsb' 8 8

/-- The byte of a word that stands at the higher address, `op[7:0]` (R45). -/
def loByte (op : Word) : Byte := op.extractLsb' 0 8

/-- The instruction class `c = op[15:12]` (R46). -/
def opC (op : Word) : Nibble := op.extractLsb' 12 4

/-- The first register operand `x = op[11:8]` (R46). -/
def opX (op : Word) : Nibble := op.extractLsb' 8 4

/-- The second register operand `y = op[7:4]` (R46). -/
def opY (op : Word) : Nibble := op.extractLsb' 4 4

/-- The sub-opcode `d = op[3:0]` (R46). -/
def opD (op : Word) : Nibble := op.extractLsb' 0 4

/-- The 12-bit address operand `nnn = op[11:0]` (R46). -/
def opNnn (op : Word) : Addr := op.extractLsb' 0 12

/-- Control signal `is_halt = (op = 0x0000)` (R63). -/
def isHalt (op : Word) : Bool := op == 0x0000#16

/-- Control signal `is_return = (op = 0x00EE)` (R63). -/
def isReturn (op : Word) : Bool := op == 0x00EE#16

/-- Control signal `is_call = (c = 2)` (R63). -/
def isCall (op : Word) : Bool := opC op == 0x2#4

/-- Control signal `is_add = (c = 8 and d = 4)` (R63). -/
def isAdd (op : Word) : Bool := opC op == 0x8#4 && opD op == 0x4#4

/-- Control signal `is_unimplemented`: none of the other four (R63, R51). -/
def isUnimplemented (op : Word) : Bool := !(isHalt op || isReturn op || isCall op || isAdd op)

/-- Why bytes are no instruction. -/
inductive DecodeError where
  /-- Fewer than two bytes were given (every instruction is two bytes, R45). Raised by `decode` only; a step never
  decodes fewer, since the bound check comes first (R62). Safe. -/
  | truncated
  /-- The opcode is none of the four (R51); dispatch takes the unimplemented-opcode condition on it (R104). Safe. -/
  | unimplementedOpcode (op : Word)
deriving DecidableEq, Repr

/-- A register field as a register index: all 16 values are valid (R48). -/
def regOfNibble (n : Nibble) : RegIx := n.toFin

/-- The instruction an opcode selects, the tests in the order of R60 and R64, the fallback last (R50). -/
def decodeWord (op : Word) : Except DecodeError Instr :=
  if isHalt op then .ok .halt
  else if isReturn op then .ok .ret
  else if isCall op then .ok (.call (opNnn op))
  else if isAdd op then .ok (.add (regOfNibble (opX op)) (regOfNibble (opY op)))
  else .error (.unimplementedOpcode op)

/-- The instruction at the head of a list of bytes, lowest address first, and the bytes after it (R45). -/
def decode : List Byte → Except DecodeError (Instr × List Byte)
  | hi :: lo :: rest =>
    match decodeWord (joinBytes hi lo) with
    | .ok i => .ok (i, rest)
    | .error e => .error e
  | _ => .error .truncated

/-- A register index as a 4-bit field (R46, R48). -/
def nibbleOfReg (r : RegIx) : Nibble := BitVec.ofNat 4 r.val

/-- The opcode of an instruction (R49). -/
def encodeWord : Instr → Word
  | .halt => 0x0000#16
  | .ret => 0x00EE#16
  | .call nnn => 0x2#4 ++ nnn
  | .add x y => 0x8#4 ++ nibbleOfReg x ++ nibbleOfReg y ++ 0x4#4

/-- The two bytes of an opcode as memory holds them, lower address first (R45). -/
def bytesOfWord (op : Word) : List Byte := [hiByte op, loByte op]

/-- The bytes of an instruction, lower address first (R45, R57). -/
def encode (i : Instr) : List Byte := bytesOfWord (encodeWord i)

/-- The three uses of the one field layout (R47; the names are decision D19). -/
inductive Format where
  /-- Z: all 16 bits fixed, no operand. -/
  | z
  /-- A: `c` fixed, `nnn` is the operand. -/
  | a
  /-- R: `c` and `d` fixed, `x` and `y` are the operands. -/
  | r
deriving DecidableEq, Repr

/-- A row of the opcode table (R49): an opcode selects the row when `(op AND mask) = match`. -/
structure OpcodeRow where
  mnemonic : String
  format : Format
  mask : Word
  pattern : Word
deriving DecidableEq, Repr

/-- `(op AND mask) = match` (R49). -/
def OpcodeRow.selects (r : OpcodeRow) (op : Word) : Bool := (op &&& r.mask) == r.pattern

/-- The row of the opcode table each instruction belongs to (R49). -/
def rowOf : Instr → OpcodeRow
  | .halt => ⟨"HALT", .z, 0xFFFF#16, 0x0000#16⟩
  | .ret => ⟨"RETURN", .z, 0xFFFF#16, 0x00EE#16⟩
  | .call _ => ⟨"CALL", .a, 0xF000#16, 0x2000#16⟩
  | .add _ _ => ⟨"ADD", .r, 0xF00F#16, 0x8004#16⟩

/-- The opcode table, in the source's order (R49, R50). -/
def opcodeTable : List OpcodeRow := [rowOf .halt, rowOf .ret, rowOf (.call 0), rowOf (.add 0 0)]

/-- The opcode of an instruction whose bits are `w`, bit 0 its least significant bit, every bit from `nbits` up 0. -/
def tableWord (nbits w : Nat) : Word := BitVec.ofNat 16 (w % 2 ^ nbits)

/-- What the decoder reads from the bytes of `tableWord nbits w`. -/
def decodeTableWord (nbits w : Nat) : Option Instr :=
  match decode (bytesOfWord (tableWord nbits w)) with
  | .ok (i, _) => some i
  | .error _ => none

end Sys2Proof
end

