-- ==== Sys2Proof/Config.lean ====
section
/-! DEFINITION. The sizes of the core. They are fixed, not configurable (spec/00_scope.md R4), and nothing in
this hardware is left open to an implementation (spec/93_implementation_defined.md section 1), so there is no
free value here. -/

namespace Sys2Proof.Config

/-- MEMSIZE: the bytes of memory, addresses 0x000 to 0xFFF (R4, R12). -/
abbrev memSize : Nat := 4096

/-- MAXFETCH: the largest `pc` at which a fetch succeeds, MEMSIZE - 2 (R4, R62). -/
abbrev maxFetch : Nat := 0x0FFE

/-- STACKDEPTH: the call-stack slots (R4, R15). -/
abbrev stackDepth : Nat := 16

/-- FLAGREG: the general register that receives the carry/overflow flag (R4, R11). -/
abbrev flagReg : RegIx := 15

end Sys2Proof.Config
end

