-- ==== Sys2Proof/Machine/State.lean ====
section
/-! DEFINITION. The whole state of the core (spec/10_state.md R10 to R22), why a model step can stop, and the
state after reset. -/

namespace Sys2Proof.Machine

/-- The four values of `status` (R18; the names Idle and Faulted are decision D3). -/
inductive Status where
  | idle
  | running
  | halted
  | faulted
deriving DecidableEq, Repr

/-- The values of `cause`: none, and the four fatal conditions (R19, R100; as an enumeration, decision D4). -/
inductive Cause where
  | none
  | outOfBoundsFetch
  | stackOverflow
  | stackUnderflow
  | unimplementedOpcode
deriving DecidableEq, Repr

/-- A reason a model operation stops without a next state. The four fatal conditions of the hardware are NOT here:
they are next states with `status` Faulted (R106, notes/assumptions/3.md). -/
inductive Fault where
  /-- An access to an address outside 0x000 to 0xFFF, where the memory primitives are not defined (R31 to R33).
  Raised by `memRead1`, `memRead2` and `memWrite1`. No step and no host operation reaches it: each establishes the
  bound first. Safe. -/
  | noSuchAddress (addr : Nat)
deriving DecidableEq, Repr

/-- A reason a model operation has no meaning. -/
inductive Refusal where
  /-- An instruction without a meaning. Raised by no arm of `exec`: every instruction has its meaning. Safe. -/
  | notModelled (mnemonic : String)
  /-- LoadByte outside Idle, which the host must not perform and to which the core gives no meaning (R90, R96).
  Raised by `hostLoadByte`. Unsafe only towards a host that breaks R96 (notes/assumptions/6.md). -/
  | loadByteNotIdle
  /-- SetReg outside Idle, likewise (R90, R96). Raised by `hostSetReg`. Unsafe only towards a host that breaks R96
  (notes/assumptions/6.md). -/
  | setRegNotIdle
deriving DecidableEq, Repr

/-- Memory: the listed (address, byte) pairs; an unlisted address reads as `unlistedByte` (Machine/Ops.lean). The
canonical form is `Memory.wf`. -/
abbrev Memory := List Host.Cell

/-- The state of the core (10_state.md, the tuple at its head). Nothing else is state (R21). -/
structure State where
  /-- The general registers; `x[15]` is the carry/overflow flag (R10, R11). -/
  x : Vector Byte 16
  /-- The 4096 bytes of memory (R12). -/
  mem : Memory
  /-- The program counter, 0 to 0x1000 (R13, R14). -/
  pc : PcValue
  /-- The call-stack slots, each 0 or a return address (R15, R17). -/
  stk : Vector PcValue 16
  /-- The stack pointer, the next free slot, 0 to 16 (R16). -/
  sp : Fin 17
  /-- Where the core is in the life of a run (R18). -/
  status : Status
  /-- Which fatal condition ended the run (R19). -/
  cause : Cause
  /-- The diagnostic value of the fatal condition (R20). -/
  info : Word
deriving DecidableEq, Repr

/-- The state after Reset: every piece of state at the value R22 gives it. -/
def State.reset : State where
  x := Vector.replicate 16 0
  mem := []
  pc := 0
  stk := Vector.replicate 16 0
  sp := 0
  status := .idle
  cause := .none
  info := 0

end Sys2Proof.Machine
end

