-- ==== Sys2Proof/Machine/Ops.lean ====
section
/-! DEFINITION. The named operations over memory, registers, the call stack, the program counter and the status
registers, and taking a fatal condition (spec/10_state.md, 20_memory.md, 60_exceptions.md R106). There is no return
from a fatal condition (R108): the one way out is the host's Reset (Machine/HostOps.lean, `hostReset`). -/

namespace Sys2Proof.Machine

/-! ### Memory as data -/

/-- What an address that is not listed reads as: the reset value of every byte of memory (R12, R22). -/
def unlistedByte : Byte := 0

/-- The byte a memory holds at an address. -/
def Memory.read : Memory → Nat → Byte
  | [], _ => unlistedByte
  | (k, w) :: m, a => if k = a then w else Memory.read m a

/-- List a byte at an address, in address order. -/
def Memory.insert : Memory → Nat → Byte → Memory
  | [], a, v => [(a, v)]
  | (k, w) :: m, a, v =>
    if a < k then (a, v) :: (k, w) :: m
    else if a = k then (a, v) :: m
    else (k, w) :: Memory.insert m a v

/-- Unlist an address. -/
def Memory.erase : Memory → Nat → Memory
  | [], _ => []
  | (k, w) :: m, a => if k = a then Memory.erase m a else (k, w) :: Memory.erase m a

/-- Set the byte at an address; storing what an unlisted address reads as removes the entry. -/
def Memory.store (m : Memory) (a : Nat) (v : Byte) : Memory :=
  if v = unlistedByte then m.erase a else m.insert a v

/-- The canonical form from address `lo` up: addresses strictly rising, each of them an address of memory, no entry
equal to what an unlisted address reads as. -/
def Memory.wfFrom : Nat → Memory → Bool
  | _, [] => true
  | lo, (k, w) :: m =>
    decide (lo ≤ k) && decide (k < Config.memSize) && decide (w ≠ unlistedByte) && Memory.wfFrom (k + 1) m

/-- The canonical form of memory. -/
def Memory.wf (m : Memory) : Bool := Memory.wfFrom 0 m

/-- The 16-bit value of two consecutive bytes, the lower address the more significant (R32). -/
def Memory.wordAt (m : Memory) (a : Nat) : Word := joinBytes (m.read a) (m.read (a + 1))

/-! ### The memory primitives -/

/-- `MemRead(addr, 1)`, defined for `addr <= 0xFFF` (R31). -/
def memRead1 (s : State) (a : Nat) : Except Fault Byte :=
  if a < Config.memSize then .ok (s.mem.read a) else .error (.noSuchAddress a)

/-- `MemRead(addr, 2)`, defined for `addr <= 0xFFE`: two single-byte reads (R32). -/
def memRead2 (s : State) (a : Nat) : Except Fault Word :=
  match memRead1 s a, memRead1 s (a + 1) with
  | .ok hi, .ok lo => .ok (joinBytes hi lo)
  | .error f, _ => .error f
  | .ok _, .error f => .error f

/-- `MemWrite(addr, 1, v)`, defined for `addr <= 0xFFF` (R33). -/
def memWrite1 (a : Nat) (v : Byte) (s : State) : Except Fault State :=
  if a < Config.memSize then .ok { s with mem := s.mem.store a v } else .error (.noSuchAddress a)

/-- The two bytes of an opcode placed at `a` and `a + 1`, high byte first (R92). For `a <= 0xFFE` only: above, the
second byte would lie outside memory (R43), and `State.withFetchWord`, its one user in the model, never gives such an `a`. -/
def placeWord (a : Nat) (op : Word) (s : State) : State :=
  { s with mem := (s.mem.store a (hiByte op)).store (a + 1) (loByte op) }

/-! ### General registers -/

/-- Read general register `i`; no register is hardwired (R10). -/
def readReg (i : RegIx) (s : State) : Byte := s.x[i]

/-- Write general register `i`; no register is hardwired (R10). -/
def writeReg (i : RegIx) (v : Byte) (s : State) : State := { s with x := s.x.set i v }

/-! ### The program counter and the status registers -/

/-- A value of `pc` or of a slot as the 16-bit word the register holds (R13, R15). -/
def pcValueWord (v : PcValue) : Word := BitVec.ofNat 16 v.val

/-- The 16-bit register `pc` (R13, decision D1). -/
def pcWord (s : State) : Word := pcValueWord s.pc

/-- `pc <- target`. -/
def setPc (target : PcValue) (s : State) : State := { s with pc := target }

/-- The advance fetch makes: `pc <- pc + 2`. Fetch makes it at `pc <= 0x0FFE` alone, where the sum is at most 0x1000 and
needs no reduction (R61). -/
def advancePc (s : State) : State := setPc (s.pc + 2) s

/-- `status <- v`. -/
def setStatus (v : Status) (s : State) : State := { s with status := v }

/-- The 2-bit code of `status` (R18, decision D3). -/
def statusCode : Status → BitVec 2
  | .idle => 0
  | .running => 1
  | .halted => 2
  | .faulted => 3

/-- The 3-bit code of `cause` (R19, decision D4). -/
def causeCode : Cause → BitVec 3
  | .none => 0
  | .outOfBoundsFetch => 1
  | .stackOverflow => 2
  | .stackUnderflow => 3
  | .unimplementedOpcode => 4

/-! ### The call stack -/

/-- The slot a CALL writes, `stk[sp]`; none when the stack is full, `sp >= 16` (R78). -/
def freeSlot (sp : Fin 17) : Option SlotIx :=
  if h : sp.val < Config.stackDepth then some ⟨sp.val, h⟩ else none

/-- The slot a RETURN reads, `stk[sp - 1]`; none when the stack is empty, `sp = 0` (R79). -/
def topSlot (sp : Fin 17) : Option SlotIx :=
  if sp.val = 0 then none else some ⟨sp.val - 1, by omega⟩

/-- Read call-stack slot `k` (R15). -/
def readSlot (k : SlotIx) (s : State) : PcValue := s.stk[k]

/-- Call-stack slot `k` as the 16-bit register it is (R15). -/
def slotWord (k : SlotIx) (s : State) : Word := pcValueWord (readSlot k s)

/-- The push of CALL: `stk[sp] <- v`, `sp <- sp + 1`, where `k` is the old `sp` (R78). -/
def pushSlot (k : SlotIx) (v : PcValue) (s : State) : State :=
  { s with stk := s.stk.set k v, sp := k.succ }

/-- The pop of RETURN: `sp <- sp - 1`, where `k` is the new `sp`; the slot keeps its value (R79, R15). -/
def popSlot (k : SlotIx) (s : State) : State := { s with sp := k.castSucc }

/-- The 5-bit register `sp` (R16, decision D2). -/
def spBits (s : State) : BitVec 5 := BitVec.ofNat 5 s.sp.val

/-- `zext_16(sp)` (R102, R103). -/
def spWord (s : State) : Word := (spBits s).setWidth 16

/-! ### Taking a fatal condition -/

/-- `raise <Condition>(v)`: `status <- Faulted`, `cause <- k`, `info <- v`, and nothing else (R106). -/
def takeFatal (k : Cause) (v : Word) (s : State) : State :=
  { s with status := .faulted, cause := k, info := v }

/-- Out-of-bounds fetch, cause 1, `info <- pc` (R62, R101). -/
def raiseOutOfBoundsFetch (s : State) : State := takeFatal .outOfBoundsFetch (pcWord s) s

/-- Stack overflow, cause 2, `info <- zext_16(sp)` (R102). -/
def raiseStackOverflow (s : State) : State := takeFatal .stackOverflow (spWord s) s

/-- Stack underflow, cause 3, `info <- zext_16(sp)` (R103). -/
def raiseStackUnderflow (s : State) : State := takeFatal .stackUnderflow (spWord s) s

/-- Unimplemented opcode, cause 4, `info <- op` (R104). -/
def raiseUnimplementedOpcode (op : Word) (s : State) : State := takeFatal .unimplementedOpcode op s

end Sys2Proof.Machine
end

