-- ==== Sys2Proof/Machine/Operands.lean ====
section
/-! DEFINITION. The operand forms: a register operand `x` or `y`, and the address operand `nnn`
(spec/30_encoding.md R48). There are no others. -/

namespace Sys2Proof.Machine

/-- A register operand: the field is the register index, used directly (R48). -/
def regOperand (r : RegIx) (s : State) : Byte := readReg r s

/-- The address operand: the absolute byte address `zext_16(nnn)`, not relative, not scaled (R48). As a value of `pc`
it is at most 0x0FFF (R14). -/
def targetOperand (nnn : Addr) : PcValue := nnn.toFin.castLE (by decide)

end Sys2Proof.Machine
end

