-- ==== Sys2Proof/Machine/Flags.lean ====
section
/-! DEFINITION. The adder and the one flag computation: the 8-bit wraparound sum and the unsigned carry out of
bit 7 (spec/43_arithmetic.md R85 to R87). -/

namespace Sys2Proof.Machine

/-- `t = a + b` as a natural number, 0 to 510; there is no carry-in (R85, R87). -/
def addExact (a b : Byte) : Nat := a.toNat + b.toNat

/-- The sum the destination register receives, `t mod 256` (R85). -/
def addResult (a b : Byte) : Byte := BitVec.ofNat 8 (addExact a b)

/-- The value the flag register receives, all 8 bits: 1 if `t > 255`, else 0 (R85). -/
def addFlag (a b : Byte) : Byte := if addExact a b > 255 then 1 else 0

/-- Write the carry/overflow flag, general register 15 (R11). -/
def writeFlag (v : Byte) (s : State) : State := writeReg Config.flagReg v s

end Sys2Proof.Machine
end

