-- ==== Sys2Proof/Machine/Arithmetic.lean ====
section
/-! DEFINITION. ADD (spec/43_arithmetic.md). -/

namespace Sys2Proof.Machine

/-- ADD rx, ry: both operands are read first, the sum is written to `x[x]`, then the flag to `x[15]`, so the flag is
what remains when `x = 15` (R85, decision D7). -/
def execAdd (x y : RegIx) (s : State) : Host.Outcome State Fault Refusal :=
  let a := regOperand x s
  let b := regOperand y s
  .next (writeFlag (addFlag a b) (writeReg x (addResult a b) s))

end Sys2Proof.Machine
end

