-- ==== Sys2Proof/Machine/ControlFlow.lean ====
section
/-! DEFINITION. CALL and RETURN (spec/42_call_return.md). Each runs with `pc` already advanced past it (R66), and
checks before it writes anything (R65). -/

namespace Sys2Proof.Machine

/-- CALL nnn: stack overflow when no slot is free; else push `pc` and go to `nnn` (R78). -/
def execCall (nnn : Addr) (s : State) : Host.Outcome State Fault Refusal :=
  match freeSlot s.sp with
  | none => .next (raiseStackOverflow s)
  | some k => .next (setPc (targetOperand nnn) (pushSlot k s.pc s))

/-- RETURN: stack underflow when no slot is live; else pop the top slot into `pc` (R79). -/
def execRet (s : State) : Host.Outcome State Fault Refusal :=
  match topSlot s.sp with
  | none => .next (raiseStackUnderflow s)
  | some k => .next (setPc (readSlot k s) (popSlot k s))

end Sys2Proof.Machine
end

