-- ==== Sys2Proof/Machine/System.lean ====
section
/-! DEFINITION. HALT, the one instruction of the system family (spec/41_halt.md). -/

namespace Sys2Proof.Machine

/-- HALT: `status <- Halted`; nothing else is written (R75). -/
def execHalt (s : State) : Host.Outcome State Fault Refusal := .next (setStatus .halted s)

end Sys2Proof.Machine
end

