-- ==== Sys2Proof/Machine/Fetch.lean ====
section
/-! DEFINITION. The first half of a step: the status test, the fetch bound check and the fetch
(spec/40_fetch_decode_dispatch.md R60 to R62). -/

namespace Sys2Proof.Machine

/-- What the fetch unit answers. -/
inductive Fetched where
  /-- The step ends here, in this state: no step is taken, or the fetch was out of bounds. -/
  | ended (s : State)
  /-- An opcode, and the state after `pc` has been advanced. -/
  | opcode (op : Word) (s : State)
  /-- A memory primitive was called outside its domain; `Laws.Step.fetch_ne_fault` shows that it never is. -/
  | fault (f : Fault)
deriving DecidableEq, Repr

/-- A core that is not Running takes no step (R60): its state stays (R67; notes/assumptions/1.md). A Running core
checks `pc > 0x0FFE` first (R62), then reads two bytes, most significant first, and advances `pc` by 2 (R61). -/
def fetch (s : State) : Fetched :=
  if s.status = .running then
    if Config.maxFetch < s.pc.val then .ended (raiseOutOfBoundsFetch s)
    else
      match memRead2 s s.pc.val with
      | .ok op => .opcode op (advancePc s)
      | .error f => .fault f
  else .ended s

end Sys2Proof.Machine
end

