-- ==== Sys2Proof/Machine/Step.lean ====
section
/-! DEFINITION. One step of the core (spec/40_fetch_decode_dispatch.md R60), and the state in which a given word is
the next instruction. -/

namespace Sys2Proof.Machine

/-- One step: bound check and fetch, decode, dispatch; an opcode that is no instruction takes the
unimplemented-opcode condition (R60, R64, R104). -/
def step (s : State) : Host.Outcome State Fault Refusal :=
  match fetch s with
  | .ended t => .next t
  | .fault f => .fault f
  | .opcode op t =>
    match decodeWord op with
    | .ok i => exec i t
    | .error _ => .next (raiseUnimplementedOpcode op t)

/-- `s` with the instruction whose bits are `w` stored where the next step fetches, and the core Running: the host's
two LoadBytes and its Run (R92, R94; notes/assumptions/2.md). Where `s.pc` is out of bounds for a fetch, `pc` becomes
the entry point 0 (R121). -/
def State.withFetchWord (s : State) (nbits w : Nat) : State :=
  let entry : PcValue := if s.pc.val ≤ Config.maxFetch then s.pc else 0
  setStatus .running (setPc entry (placeWord entry.val (tableWord nbits w) s))

end Sys2Proof.Machine
end

