-- ==== Sys2Proof/Machine/HostOps.lean ====
section
/-! DEFINITION. The host's operations: Reset, LoadByte, SetReg, Run and Inspect (spec/50_interfaces.md R90 to R98,
spec/70_reset_and_hazards.md R120). -/

namespace Sys2Proof.Machine

/-- A state-changing operation of the host (R90). An address is one of 0x000 to 0xFFF and a register one of 0 to 15:
the operation does not exist for others (R92, R93). -/
inductive HostOp where
  | reset
  | loadByte (addr : Addr) (v : Byte)
  | setReg (i : RegIx) (v : Byte)
  | run
deriving DecidableEq, Repr

/-- Reset, in any `status`: every piece of state takes its reset value, all at once (R91, R120). -/
def hostReset (_s : State) : Host.Outcome State Fault Refusal := .next State.reset

/-- LoadByte, only while Idle: `MemWrite(addr, 1, v)`, nothing else (R92). -/
def hostLoadByte (addr : Addr) (v : Byte) (s : State) : Host.Outcome State Fault Refusal :=
  if s.status = .idle then
    match memWrite1 addr.toNat v s with
    | .ok t => .next t
    | .error f => .fault f
  else .refused .loadByteNotIdle

/-- SetReg, only while Idle: `x[i] <- v`, nothing else (R93). -/
def hostSetReg (i : RegIx) (v : Byte) (s : State) : Host.Outcome State Fault Refusal :=
  if s.status = .idle then .next (writeReg i v s) else .refused .setRegNotIdle

/-- Run: in Idle `status <- Running`, nothing else; in any other `status` no effect (R94). -/
def hostRun (s : State) : Host.Outcome State Fault Refusal :=
  if s.status = .idle then .next (setStatus .running s) else .next s

/-- The effect of a host operation (R90). -/
def applyHostOp : HostOp → State → Host.Outcome State Fault Refusal
  | .reset, s => hostReset s
  | .loadByte addr v, s => hostLoadByte addr v s
  | .setReg i v, s => hostSetReg i v s
  | .run, s => hostRun s

/-- A list of host operations, first to last, stopping at one that is no move. -/
def applyHostOps : List HostOp → State → Host.Outcome State Fault Refusal
  | [], s => .next s
  | op :: ops, s =>
    match applyHostOp op s with
    | .next t => applyHostOps ops t
    | .fault f => .fault f
    | .refused r => .refused r

/-- The two LoadBytes that place an instruction word at an address, high byte first (R92). At 0xFFF there are none:
the second byte would lie at 0x1000, where no LoadByte exists (R92), and addresses do not wrap (R43). That the
whole placement is then absent, its first byte with it, is the model's choice (DESIGN CHOICE, log entry 11). -/
def loadWordOps (addr : Addr) (op : Word) : Option (List HostOp) :=
  if addr.toNat ≤ Config.maxFetch then
    some [.loadByte addr (hiByte op), .loadByte (addr + 1) (loByte op)]
  else none

/-- The boot order: Reset, then the loads and presets, then Run (R122). -/
def bootOps (loadsAndPresets : List HostOp) : List HostOp := [.reset] ++ loadsAndPresets ++ [.run]

/-- The launch state of a run: any memory and any registers, everything else as reset leaves it, and Running (R98). -/
def launchState (mem : Memory) (x : Vector Byte 16) : State :=
  { State.reset with mem := mem, x := x, status := .running }

/-- What Inspect shows: `status` always, and the rest of the state unless the core is Running, when no other value it
samples may be relied on (R95, decision D25). -/
structure Inspection where
  status : Status
  rest : Option State
deriving DecidableEq, Repr

/-- Inspect: reads, and changes nothing (R95). -/
def inspect (s : State) : Inspection :=
  ⟨s.status, if s.status = .running then none else some s⟩

end Sys2Proof.Machine
end

