-- ==== Sys2Proof/Machine/Moves.lean ====
section
/-! DEFINITION. The core and the host together: the two agents move one at a time, the host's operations landing
between steps (spec/50_interfaces.md R90, R99; spec/70_reset_and_hazards.md R120). -/

namespace Sys2Proof.Machine

/-- A move of one of the two agents (R90). -/
inductive Move where
  /-- The core takes its next step; no effect unless Running (R60). -/
  | core
  /-- The host performs an operation. -/
  | host (op : HostOp)
deriving DecidableEq, Repr

/-- One move. -/
def move : Move → State → Host.Outcome State Fault Refusal
  | .core, s => step s
  | .host op, s => applyHostOp op s

/-- A schedule of moves, first to last, stopping at one that has no next state. -/
def moves : List Move → State → Host.Outcome State Fault Refusal
  | [], s => .next s
  | m :: ms, s =>
    match move m s with
    | .next t => moves ms t
    | .fault f => .fault f
    | .refused r => .refused r

end Sys2Proof.Machine
end

