-- ==== Sys2Proof/Safety.lean ====
section
/-! DEFINITION. The terms claims about the core are stated in: the end of a run, the states the spec calls states of
the machine (its invariants), the states the two agents can reach, and the stretch of steps between a CALL and its
RETURN. -/

namespace Sys2Proof.Machine

/-- The end of a run: `status = Halted or status = Faulted` (R67). -/
abbrev Ended (s : State) : Prop := s.status = .halted ∨ s.status = .faulted

/-- How a correct program's run ends: Halted with `cause = 0` (R67). -/
abbrev EndedWell (s : State) : Prop := s.status = .halted ∧ s.cause = .none

/-- A return address as a CALL stores it: the address of the CALL plus 2, in 2 to 0x1000 (R17). -/
abbrev IsReturnAddress (v : PcValue) : Prop := 2 ≤ v.val ∧ v.val ≤ 0x1000

/-- R14: `0 <= pc <= 0x1000`, of the 16-bit register; every state of the model meets it (notes/assumptions/4.md). -/
abbrev PcInRange (s : State) : Prop := (pcWord s).toNat ≤ 0x1000

/-- R17 (b): every live slot holds a return address. -/
abbrev LiveSlotsReturn (s : State) : Prop :=
  ∀ k : SlotIx, k.val < s.sp.val → IsReturnAddress (readSlot k s)

/-- R17 (c): every slot holds 0 or a return address. -/
abbrev SlotsZeroOrReturn (s : State) : Prop :=
  ∀ k : SlotIx, readSlot k s = 0 ∨ IsReturnAddress (readSlot k s)

/-- R19: `cause` is none exactly when `status` is not Faulted. -/
abbrev CauseMatchesStatus (s : State) : Prop := s.cause = .none ↔ s.status ≠ .faulted

/-- R20, R100: `info` is 0 without a cause, and otherwise the diagnostic of the condition: the `pc` whose fetch was
refused, the full or the empty stack pointer, or the opcode, which stands in memory just below `pc` (R107). -/
abbrev InfoMatchesCause (s : State) : Prop :=
  (s.cause = .none → s.info = 0) ∧
  (s.cause = .outOfBoundsFetch → s.info = pcWord s ∧ Config.maxFetch < s.pc.val) ∧
  (s.cause = .stackOverflow → s.info = 16 ∧ s.sp = 16) ∧
  (s.cause = .stackUnderflow → s.info = 0 ∧ s.sp = 0) ∧
  (s.cause = .unimplementedOpcode →
    isUnimplemented s.info = true ∧ 2 ≤ s.pc.val ∧ s.info = s.mem.wordAt (s.pc.val - 2))

/-- R94, R97, R98: in Idle `pc` is 0, the stack is empty and its slots are 0. -/
abbrev IdleIsFresh (s : State) : Prop :=
  s.status = .idle → s.pc = 0 ∧ s.sp = 0 ∧ s.stk = Vector.replicate 16 0

/-- The invariant of the machine: what R12, R14, R17, R19, R20 and R98 say of every reachable state. -/
abbrev Inv (s : State) : Prop :=
  s.mem.wf = true ∧ PcInRange s ∧ LiveSlotsReturn s ∧ SlotsZeroOrReturn s ∧
  CauseMatchesStatus s ∧ InfoMatchesCause s ∧ IdleIsFresh s

/-- The states the two agents reach from reset (R14, R90). -/
def Reachable (s : State) : Prop := ∃ ms : List Move, moves ms State.reset = .next s

/-- `n` steps of the core, with no host operation between them (R67). -/
def runSteps (n : Nat) (s : State) : Host.Outcome State Fault Refusal := Host.Core.run Sys2Proof.core n s

/-- The opcode at the program counter. -/
def opcodeAtPc (s : State) : Word := s.mem.wordAt s.pc.val

/-- The next step fetches and selects instruction `i`: the core is Running, the fetch is in bounds, and the opcode at
`pc` decodes to `i` (R60). -/
abbrev AboutToRun (i : Instr) (s : State) : Prop :=
  s.status = .running ∧ s.pc.val ≤ Config.maxFetch ∧ decodeWord (opcodeAtPc s) = .ok i

/-- The address of the instruction at which a fatal condition arose, read off the Faulted state (R107). -/
def faultingAddress (s : State) : PcValue := if s.cause = .outOfBoundsFetch then s.pc else s.pc - 2

/-- `n` steps lead from `s` to `t`, and every state on the way, both ends included, has more than `floor` live slots:
the stretch between a CALL made with `sp = floor` and its matching RETURN (R80). -/
def StaysAbove (floor : Nat) : Nat → State → State → Prop
  | 0, s, t => floor < s.sp.val ∧ s = t
  | n + 1, s, t => floor < s.sp.val ∧ ∃ u, step s = .next u ∧ StaysAbove floor n u t

end Sys2Proof.Machine
end

