-- ==== Sys2Proof/WellFormed.lean ====
section
/-! DEFINITION. Well-formedness of an instruction as it is WRITTEN (spec/30_encoding.md R54): the operands an
assembler line gives are numbers, and only some numbers are operands. A term of `Instr` itself is always well
formed, since its operand types hold exactly the operands of R48. -/

namespace Sys2Proof

/-- An instruction with its operands as the numbers written in the assembler syntax (R54). -/
inductive AsmInstr where
  | halt
  | ret
  | call (nnn : Nat)
  | add (rx ry : Nat)
deriving DecidableEq, Repr

/-- R54: "`CALL nnn`, with `nnn` a number 0 to 0xFFF"; "`ADD rX, rY`, with X and Y decimal numbers 0 to 15". -/
def AsmInstr.wellFormed : AsmInstr → Bool
  | .halt => true
  | .ret => true
  | .call nnn => decide (nnn ≤ 0xFFF)
  | .add rx ry => decide (rx ≤ 15) && decide (ry ≤ 15)

/-- The instruction a well-formed line stands for (R54); none for an ill-formed line. -/
def assemble : AsmInstr → Option Instr
  | .halt => some .halt
  | .ret => some .ret
  | .call nnn => if nnn ≤ 0xFFF then some (.call (BitVec.ofNat 12 nnn)) else none
  | .add rx ry =>
    if h : rx < 16 ∧ ry < 16 then some (.add ⟨rx, h.1⟩ ⟨ry, h.2⟩) else none

end Sys2Proof
end

