-- ==== Sys2Proof/Certificates/Slice0/Obligations.lean ====
section
/-! DEFINITION. The statements about the core, each from the numbered rules of spec/. A docstring that says "derived"
names the sentence or decision of the spec, or the entry of the assumption log, that the statement rests on beyond
the rules' plain words. -/

open Sys2Proof Sys2Proof.Machine

/-! ### Memory -/

/-- R32: a 2-byte read at `0 <= addr <= 0xFFE` answers `mem[addr] * 256 + mem[addr + 1]`, two single-byte reads; it
is not defined above. -/
def Obligations.MemReadIsBigEndian : Prop :=
  ∀ (s : State) (a : Nat),
    (a ≤ 0xFFE → ∃ (w : Word) (hi lo : Byte), memRead2 s a = .ok w ∧
      memRead1 s a = .ok hi ∧ memRead1 s (a + 1) = .ok lo ∧
      hi = s.mem.read a ∧ lo = s.mem.read (a + 1) ∧ w.toNat = hi.toNat * 256 + lo.toNat) ∧
    (0xFFE < a → ∀ w, memRead2 s a ≠ .ok w)

/-- R33: a write at `0 <= addr <= 0xFFF` sets that byte and changes nothing else, it does not exist above, and no
instruction writes memory. -/
def Obligations.MemWriteSetsOneByteOnly : Prop :=
  (∀ (s : State) (a : Nat) (v : Byte),
    (a ≤ 0xFFF → ∃ t, memWrite1 a v s = .ok t ∧ t.mem.read a = v ∧
      (∀ b, b ≠ a → t.mem.read b = s.mem.read b) ∧ t = { s with mem := t.mem }) ∧
    (0xFFF < a → ∀ t, memWrite1 a v s ≠ .ok t)) ∧
  (∀ (i : Instr) (s t : State), exec i s = .next t → t.mem = s.mem)

/-- Derived (the canonical list form is the model's own choice, notes/assumptions/10.md, of which the spec's rules on
memory, R12 and R30, say nothing): two memories in the model's canonical form that read the same at every address are
the same data, so that equality of states is equality of what R12 gives memory, its bytes. -/
def Obligations.CanonicalMemoriesAreEqual : Prop :=
  ∀ m m' : Memory, m.wf = true → m'.wf = true → (∀ a, m.read a = m'.read a) → m = m'

/-- R44: a memory write never reaches the registers or the call stack, CALL does not write memory and RETURN does not
read it. -/
def Obligations.MemoryRegistersAndStackAreSeparate : Prop :=
  (∀ (a : Nat) (v : Byte) (s t : State), memWrite1 a v s = .ok t →
    t.x = s.x ∧ t.stk = s.stk ∧ t.sp = s.sp) ∧
  (∀ (s : State) (x : Vector Byte 16) (stk : Vector PcValue 16) (sp : Fin 17) (a : Nat),
    memRead1 { s with x := x, stk := stk, sp := sp } a = memRead1 s a ∧
    memRead2 { s with x := x, stk := stk, sp := sp } a = memRead2 s a) ∧
  (∀ (nnn : Addr) (s : State), ∃ t, exec (.call nnn) s = .next t ∧ t.mem = s.mem) ∧
  (∀ (s : State) (m : Memory), ∃ t, exec .ret s = .next t ∧
    exec .ret { s with mem := m } = .next { t with mem := m })

/-! ### Encoding -/

/-- Derived (R49, R45): the bytes of every instruction, followed by any bytes, decode to that instruction and leave
those bytes. -/
def Obligations.DecodeOfEncodeIsIdentity : Prop :=
  ∀ (i : Instr) (rest : List Byte), decode (encode i ++ rest) = .ok (i, rest)

/-- Derived (R49, R56): an opcode that decodes to an instruction is that instruction's opcode, so each word has one
meaning and no bit of an operand is dropped. -/
def Obligations.EncodeOfDecodeIsIdentity : Prop :=
  ∀ (op : Word) (i : Instr), decodeWord op = .ok i → encodeWord i = op

/-- R49: the four rows of the opcode table; an opcode selects an instruction when `(op AND mask) = match`, and its
operands are `nnn = op mod 2^12`, `x = op[11:8]`, `y = op[7:4]`. -/
def Obligations.DecoderFollowsTheOpcodeTable : Prop :=
  opcodeTable = [⟨"HALT", .z, 0xFFFF, 0x0000⟩, ⟨"RETURN", .z, 0xFFFF, 0x00EE⟩,
    ⟨"CALL", .a, 0xF000, 0x2000⟩, ⟨"ADD", .r, 0xF00F, 0x8004⟩] ∧
  (∀ op : Word,
    (op &&& 0xFFFF = 0x0000 ↔ decodeWord op = .ok .halt) ∧
    (op &&& 0xFFFF = 0x00EE ↔ decodeWord op = .ok .ret) ∧
    (op &&& 0xF000 = 0x2000 ↔
      ∃ nnn : Addr, nnn.toNat = op.toNat % 4096 ∧ decodeWord op = .ok (.call nnn)) ∧
    (op &&& 0xF00F = 0x8004 ↔
      ∃ x y : RegIx, x.val = op.toNat / 256 % 16 ∧ y.val = op.toNat / 16 % 16 ∧
        decodeWord op = .ok (.add x y)))

/-- R56: every 16-bit value is exactly one of HALT, RETURN, CALL, ADD or unimplemented, decoding answers for each, and
the unimplemented-opcode condition is raised by the step exactly for the last class. -/
def Obligations.EveryOpcodeHasExactlyOneClass : Prop :=
  (∀ op : Word,
    [isHalt op, isReturn op, isCall op, isAdd op, isUnimplemented op].count true = 1 ∧
    (isHalt op = true ↔ decodeWord op = .ok .halt) ∧
    (isReturn op = true ↔ decodeWord op = .ok .ret) ∧
    (isCall op = true ↔ ∃ nnn, decodeWord op = .ok (.call nnn)) ∧
    (isAdd op = true ↔ ∃ x y, decodeWord op = .ok (.add x y)) ∧
    (isUnimplemented op = true ↔ decodeWord op = .error (.unimplementedOpcode op))) ∧
  (∀ s : State, s.status = .running → s.cause = .none → s.pc.val ≤ 0x0FFE →
    ∃ t, step s = .next t ∧
      (t.cause = .unimplementedOpcode ↔ isUnimplemented (opcodeAtPc s) = true))

/-- R46: the four nibbles and `nnn` are the bits the rule gives them, `nnn = x ## y ## d`, and the two bytes are
`c ## x` and `y ## d`. -/
def Obligations.FieldsAreTheirBits : Prop :=
  ∀ op : Word,
    (opC op).toNat = op.toNat / 2 ^ 12 % 2 ^ 4 ∧ (opX op).toNat = op.toNat / 2 ^ 8 % 2 ^ 4 ∧
    (opY op).toNat = op.toNat / 2 ^ 4 % 2 ^ 4 ∧ (opD op).toNat = op.toNat % 2 ^ 4 ∧
    (opNnn op).toNat = op.toNat % 2 ^ 12 ∧
    (opNnn op).toNat = (opX op).toNat * 256 + (opY op).toNat * 16 + (opD op).toNat ∧
    (hiByte op).toNat = (opC op).toNat * 16 + (opX op).toNat ∧
    (loByte op).toNat = (opY op).toNat * 16 + (opD op).toNat

/-- Derived (30_encoding.md section 5, without its counts): which opcodes are unimplemented, class by class. -/
def Obligations.UnimplementedOpcodesByClass : Prop :=
  ∀ op : Word,
    isUnimplemented op = true ↔
      (op.toNat / 4096 = 0 ∧ op.toNat ≠ 0x0000 ∧ op.toNat ≠ 0x00EE) ∨
      op.toNat / 4096 = 1 ∨ (3 ≤ op.toNat / 4096 ∧ op.toNat / 4096 ≤ 7) ∨
      (op.toNat / 4096 = 8 ∧ op.toNat % 16 ≠ 4) ∨ 9 ≤ op.toNat / 4096

/-- R57: the encoding examples, each written out from the rule, assembled and decoded. -/
def Obligations.EncodingExamplesOfTheSpec : Prop :=
  ((assemble (.call 0x100)).map encode = some [0x21, 0x00] ∧
    decodeWord 0x2100 = .ok (.call 0x100)) ∧
  ((assemble (.call 0xFFF)).map encode = some [0x2F, 0xFF] ∧
    decodeWord 0x2FFF = .ok (.call 0xFFF)) ∧
  ((assemble (.call 0)).map encode = some [0x20, 0x00] ∧ decodeWord 0x2000 = .ok (.call 0)) ∧
  ((assemble (.add 0 1)).map encode = some [0x80, 0x14] ∧ decodeWord 0x8014 = .ok (.add 0 1)) ∧
  ((assemble (.add 15 15)).map encode = some [0x8F, 0xF4] ∧
    decodeWord 0x8FF4 = .ok (.add 15 15)) ∧
  ((assemble (.add 10 3)).map encode = some [0x8A, 0x34] ∧ decodeWord 0x8A34 = .ok (.add 10 3)) ∧
  ((assemble .ret).map encode = some [0x00, 0xEE] ∧ decodeWord 0x00EE = .ok .ret) ∧
  ((assemble .halt).map encode = some [0x00, 0x00] ∧ decodeWord 0x0000 = .ok .halt)

/-- Derived (30_encoding.md section 7; the syntax is decision D15): exactly the well-formed lines assemble, each of the
four kinds to the word the section gives it. -/
def Obligations.AssemblerAcceptsItsOperandRanges : Prop :=
  (∀ l : AsmInstr, (∃ i, assemble l = some i) ↔ l.wellFormed = true) ∧
  (assemble .halt).map encodeWord = some 0x0000 ∧
  (assemble .ret).map encodeWord = some 0x00EE ∧
  (∀ n, n ≤ 0xFFF →
    ∃ i, assemble (.call n) = some i ∧ (encodeWord i).toNat = 0x2000 + n) ∧
  (∀ rx ry, rx ≤ 15 → ry ≤ 15 →
    ∃ i, assemble (.add rx ry) = some i ∧ (encodeWord i).toNat = 0x8004 + rx * 256 + ry * 16)

/-! ### The step -/

/-- R61: a fetch in bounds reads `mem[pc] ## mem[pc + 1]`, advances `pc` by 2 without wrapping, and changes nothing
else; `pc` may be odd. -/
def Obligations.FetchReadsTwoBytesAndAdvances : Prop :=
  ∀ s : State, s.status = .running → s.pc.val ≤ 0x0FFE →
    ∃ (op : Word) (t : State), fetch s = .opcode op t ∧
      op.toNat = (s.mem.read s.pc.val).toNat * 256 + (s.mem.read (s.pc.val + 1)).toNat ∧
      t.pc.val = s.pc.val + 2 ∧ t.pc.val ≤ 0x1000 ∧ t = { s with pc := t.pc }

/-- R60: the step as the rule's pseudocode gives it: the bound check, the fetch that advances `pc`, the four tests in
order and the fallback; in any other `status` nothing is done. -/
def Obligations.StepFollowsThePseudocode : Prop :=
  (∀ s : State, s.status = .running →
    step s =
      if 0x0FFE < s.pc.val then .next (takeFatal .outOfBoundsFetch (pcWord s) s)
      else
        let op := s.mem.wordAt s.pc.val
        let t := { s with pc := s.pc + 2 }
        if op = 0x0000 then exec .halt t
        else if op = 0x00EE then exec .ret t
        else if opC op = 2 then exec (.call (opNnn op)) t
        else if opC op = 8 ∧ opD op = 4 then exec (.add (opX op).toFin (opY op).toFin) t
        else .next (takeFatal .unimplementedOpcode op t)) ∧
  (∀ s t : State, s.status ≠ .running → step s = .next t → t = s)

/-- Derived (R60, R64): when the bytes at `pc` decode to an instruction, the step of a Running core is that
instruction's meaning in the state whose `pc` is advanced past its two bytes, and nothing else. -/
def Obligations.StepRunsTheDecodedInstruction : Prop :=
  ∀ (i : Instr) (s : State) (rest : List Byte), s.status = .running → s.pc.val ≤ 0x0FFE →
    decode (s.mem.read s.pc.val :: s.mem.read (s.pc.val + 1) :: rest) = .ok (i, rest) →
    step s = exec i { s with pc := s.pc + 2 }

/-- Derived (R60: "in any other `status` it performs none"; that the model's step then answers the unchanged state is
its choice, notes/assumptions/1.md). -/
def Obligations.NoStepUnlessRunning : Prop :=
  ∀ s : State, s.status ≠ .running → step s = .next s

/-- Derived, and in part the model's choice: that a Running state has a successor is 40_fetch_decode_dispatch.md R68,
marked derived there; that a state which is not Running has one, itself, is notes/assumptions/1.md (DESIGN CHOICE);
that a fatal condition is a next state and no fault of the model is notes/assumptions/3.md (DEDUCED). Every state has
a successor; no step ends in a fault or a refusal of the model. -/
def Obligations.EveryStateHasASuccessor : Prop :=
  ∀ s : State, ∃ t, step s = .next t

/-- Derived (R62 with decisions D5 and D23): a fetch at `pc > 0x0FFE` sets `status`, `cause` and `info`, and nothing
else; `pc` is not advanced and does not wrap. -/
def Obligations.OutOfBoundsFetchIsFatal : Prop :=
  ∀ s : State, s.status = .running → 0x0FFE < s.pc.val →
    step s = .next { s with status := .faulted, cause := .outOfBoundsFetch, info := pcWord s }

/-- R104: an opcode that is none of the four is fatal; `info` is the opcode, `pc` is its address plus 2, no register,
slot or `sp` changes. -/
def Obligations.UnimplementedOpcodeIsFatal : Prop :=
  ∀ s : State, s.status = .running → s.pc.val ≤ 0x0FFE →
    decodeWord (opcodeAtPc s) ≠ .ok .halt → decodeWord (opcodeAtPc s) ≠ .ok .ret →
    (∀ nnn, decodeWord (opcodeAtPc s) ≠ .ok (.call nnn)) →
    (∀ x y, decodeWord (opcodeAtPc s) ≠ .ok (.add x y)) →
    step s = .next { s with pc := s.pc + 2, status := .faulted, cause := .unimplementedOpcode,
                            info := opcodeAtPc s }

/-- R102: a CALL with 16 return addresses held is fatal; no slot is written, `sp` stays, `pc` is the CALL's address
plus 2 and not `nnn`, `info` is 16. -/
def Obligations.StackOverflowIsFatal : Prop :=
  ∀ (nnn : Addr) (s : State), AboutToRun (.call nnn) s → 16 ≤ s.sp.val →
    step s = .next { s with pc := s.pc + 2, status := .faulted, cause := .stackOverflow, info := 16 }

/-- R103: a RETURN with an empty stack is fatal; `sp` stays 0, `pc` is the RETURN's address plus 2, `info` is 0. -/
def Obligations.StackUnderflowIsFatal : Prop :=
  ∀ s : State, AboutToRun .ret s → s.sp.val = 0 →
    step s = .next { s with pc := s.pc + 2, status := .faulted, cause := .stackUnderflow, info := 0 }

/-- Derived (60_exceptions.md R100, R105): which fatal condition a step takes, each exactly when its own condition
holds, and `status` becomes Faulted exactly with a cause. A CALL with a full stack overflows whatever its target. -/
def Obligations.EachFatalConditionArisesExactlyWhen : Prop :=
  ∀ s t : State, s.status = .running → s.cause = .none → step s = .next t →
    (t.cause = .outOfBoundsFetch ↔ 0x0FFE < s.pc.val) ∧
    (t.cause = .stackOverflow ↔ (∃ nnn, AboutToRun (.call nnn) s) ∧ s.sp = 16) ∧
    (t.cause = .stackUnderflow ↔ AboutToRun .ret s ∧ s.sp = 0) ∧
    (t.cause = .unimplementedOpcode ↔ s.pc.val ≤ 0x0FFE ∧ isUnimplemented (opcodeAtPc s) = true) ∧
    (t.status = .faulted ↔ t.cause ≠ .none)

/-- Derived (60_exceptions.md R107; the `pc` of a Faulted state is decision D6): a step that ends Faulted leaves
registers, memory, slots and `sp` as they were, and the address of the faulting instruction can be read off `pc`. -/
def Obligations.FatalConditionsArePrecise : Prop :=
  ∀ s t : State, s.status = .running → step s = .next t → t.status = .faulted →
    t.x = s.x ∧ t.mem = s.mem ∧ t.stk = s.stk ∧ t.sp = s.sp ∧ faultingAddress t = s.pc

/-! ### The instructions -/

/-- Derived (41_halt.md R75; that `pc` keeps the value fetch gave it is decision D6): HALT sets `status` and nothing
else, and a step that runs it leaves `pc` at its address plus 2. -/
def Obligations.HaltEndsTheRun : Prop :=
  (∀ s : State, exec .halt s = .next { s with status := .halted }) ∧
  (∀ s : State, AboutToRun .halt s → step s = .next { s with pc := s.pc + 2, status := .halted })

/-- R78: `op = 0x2nnn` is CALL nnn; with a free slot CALL stores `pc` in `stk[sp]`, increments `sp`, goes to `nnn` and changes nothing else; with
`sp >= 16` it raises stack overflow with `info = sp` and makes none of these writes. -/
def Obligations.CallPushesAndJumps : Prop :=
  ∀ (nnn : Addr) (s : State),
    (s.sp.val < 16 → ∃ t, exec (.call nnn) s = .next t ∧
      (∀ k : SlotIx, readSlot k t = if k.val = s.sp.val then s.pc else readSlot k s) ∧
      t.sp.val = s.sp.val + 1 ∧ t.pc.val = nnn.toNat ∧
      t.x = s.x ∧ t.mem = s.mem ∧ t.status = s.status ∧ t.cause = s.cause ∧ t.info = s.info) ∧
    (16 ≤ s.sp.val → ∃ t, exec (.call nnn) s = .next t ∧ t.info.toNat = s.sp.val ∧
      t = { s with status := .faulted, cause := .stackOverflow, info := t.info }) ∧
    (∀ op : Word, decodeWord op = .ok (.call nnn) ↔ op.toNat = 0x2000 + nnn.toNat)

/-- R79: `op = 0x00EE`, and no other, is RETURN; with a live slot RETURN decrements `sp` and sets `pc` to the slot that was the top, which keeps its value,
and changes nothing else; with `sp = 0` it raises stack underflow with `info = 0` and makes none of these writes. -/
def Obligations.ReturnPopsIntoPc : Prop :=
  ∀ s : State,
    (0 < s.sp.val → ∃ t, exec .ret s = .next t ∧ t.sp.val = s.sp.val - 1 ∧
      (∀ k : SlotIx, k.val = s.sp.val - 1 → t.pc = readSlot k s) ∧
      (∀ k : SlotIx, readSlot k t = readSlot k s) ∧
      t.x = s.x ∧ t.mem = s.mem ∧ t.status = s.status ∧ t.cause = s.cause ∧ t.info = s.info) ∧
    (s.sp.val = 0 →
      exec .ret s = .next { s with status := .faulted, cause := .stackUnderflow, info := 0 }) ∧
    (∀ op : Word, decodeWord op = .ok .ret ↔ op = 0x00EE)

/-- Derived (43_arithmetic.md R85; that the flag write is last, so that the sum is lost when `x = 15`, is decision
D7): ADD never fails, the flag register ends as 1 or 0 by the overflow of the operands' old values, the destination
gets the sum modulo 256 unless it is the flag register, and nothing else changes. -/
def Obligations.AddWritesSumThenFlag : Prop :=
  ∀ (x y : RegIx) (s : State), ∃ t, exec (.add x y) s = .next t ∧
    readReg 15 t = (if 255 < (readReg x s).toNat + (readReg y s).toNat then 1 else 0) ∧
    (x ≠ 15 → (readReg x t).toNat = ((readReg x s).toNat + (readReg y s).toNat) % 256) ∧
    (∀ r, r ≠ x → r ≠ 15 → readReg r t = readReg r s) ∧
    t.pc = s.pc ∧ t.sp = s.sp ∧ t.stk = s.stk ∧ t.mem = s.mem ∧
    t.status = s.status ∧ t.cause = s.cause ∧ t.info = s.info

/-- R86: sum and flag together lose nothing when `x != 15`, the addition commutes in value and flag but not in
destination, overflow never traps, and the would-be encodings of other operations are unimplemented. -/
def Obligations.AdditionLosesNoInformation : Prop :=
  (∀ (x y : RegIx) (s : State), ∃ t, exec (.add x y) s = .next t ∧ t.status = s.status ∧
    ((readReg 15 t).toNat = ((readReg x s).toNat + (readReg y s).toNat) / 256) ∧
    (x ≠ 15 →
      (readReg x t).toNat = ((readReg x s).toNat + (readReg y s).toNat) % 256 ∧
      (readReg 15 t).toNat * 256 + (readReg x t).toNat =
        (readReg x s).toNat + (readReg y s).toNat)) ∧
  (∀ (x y : RegIx) (s t u : State), x ≠ 15 → y ≠ 15 →
    exec (.add x y) s = .next t → exec (.add y x) s = .next u →
    readReg x t = readReg y u ∧ readReg 15 t = readReg 15 u ∧
    (x ≠ y → readReg y t = readReg y s ∧ readReg x u = readReg x s)) ∧
  (∀ op : Word, op.toNat / 4096 = 8 → op.toNat % 16 ≠ 4 → isUnimplemented op = true)

/-- R87: the flag is 1 exactly when the true sum is 256 or more, it is not a signed overflow, its old value is no
input unless register 15 is an operand, and it is not sticky. -/
def Obligations.FlagIsTheUnsignedCarryOut : Prop :=
  (∀ (x y : RegIx) (s t : State), exec (.add x y) s = .next t →
    (readReg 15 t = 1 ↔ 256 ≤ (readReg x s).toNat + (readReg y s).toNat) ∧
    (readReg 15 t = 0 ↔ (readReg x s).toNat + (readReg y s).toNat ≤ 255)) ∧
  (∀ (x y : RegIx) (s : State) (v : Byte), x ≠ 15 → y ≠ 15 →
    exec (.add x y) (writeReg 15 v s) = exec (.add x y) s)

/-- Derived (10_state.md R10): HALT, CALL and RETURN neither write nor read a general register. -/
def Obligations.HaltCallReturnIgnoreRegisters : Prop :=
  ∀ (i : Instr) (s : State) (x : Vector Byte 16), (∀ a b, i ≠ .add a b) →
    ∃ t, exec i s = .next t ∧ t.x = s.x ∧ exec i { s with x := x } = .next { t with x := x }

/-- Derived (10_state.md R23, 20_memory.md R36): the frame of every instruction. No instruction stores to memory; the
registers that may change are ADD's `x[x]` and `x[15]`; the slot that may change is CALL's `stk[sp]`; HALT and ADD
leave `pc` and `sp`; `cause` and `info` change only with a fatal condition. -/
def Obligations.InstructionFrames : Prop :=
  ∀ (i : Instr) (s t : State), exec i s = .next t →
    (∀ a, t.mem.read a = s.mem.read a) ∧
    (∀ r, (∀ x y, i = .add x y → r ≠ x ∧ r ≠ 15) → readReg r t = readReg r s) ∧
    (∀ k : SlotIx, (∀ nnn, i = .call nnn → k.val ≠ s.sp.val) → readSlot k t = readSlot k s) ∧
    ((∀ nnn, i ≠ .call nnn) → i ≠ .ret → t.pc = s.pc ∧ t.sp = s.sp) ∧
    (i ≠ .halt → t.status = s.status ∨ t.status = .faulted) ∧
    (t.status ≠ .faulted → t.cause = s.cause ∧ t.info = s.info)

/-- Derived (42_call_return.md R83, R81): CALL and RETURN are the only instructions that change `pc` other than by the
fetch advance, and the only ones that touch the call stack. -/
def Obligations.OnlyCallAndReturnTransferControl : Prop :=
  ∀ (i : Instr) (s t : State), AboutToRun i s → step s = .next t →
    (∀ nnn, i ≠ .call nnn) → i ≠ .ret →
    t.pc.val = s.pc.val + 2 ∧ t.sp = s.sp ∧ t.stk = s.stk

/-! ### The whole machine -/

/-- Derived (10_state.md R22, 70_reset_and_hazards.md R120; reset as the source's construction is decision D12, and
`status`, `cause` and `info` are decisions D3 to D5): Reset gives every piece of state its reset value, in any state. -/
def Obligations.ResetGivesEveryFieldItsValue : Prop :=
  (∀ s, applyHostOp .reset s = .next State.reset) ∧
  (∀ i, readReg i State.reset = 0) ∧ (∀ a, State.reset.mem.read a = 0) ∧ State.reset.pc = 0 ∧
  (∀ k, readSlot k State.reset = 0) ∧ State.reset.sp = 0 ∧ State.reset.status = .idle ∧
  State.reset.cause = .none ∧ State.reset.info = 0

/-- Derived (10_state.md R14, R16 and R17, with decision D17: values of `pc` above 0x1000 and of `sp` above 16 are not
states of the machine; that the model makes them, and slot values above 0x1000, unrepresentable is
notes/assumptions/4.md): in every state, reachable or not, the 16-bit `pc` and slots are at most 0x1000 and the 5-bit
`sp` at most 16; and every value up to those bounds is some state's. -/
def Obligations.ValuesThatAreNoStateDoNotExist : Prop :=
  (∀ s : State, (pcWord s).toNat ≤ 0x1000 ∧ (∀ k : SlotIx, (slotWord k s).toNat ≤ 0x1000) ∧
    (spBits s).toNat ≤ 16) ∧
  (∀ (pc sp : Nat) (slot : SlotIx → Nat), pc ≤ 0x1000 → sp ≤ 16 → (∀ k, slot k ≤ 0x1000) →
    ∃ s : State, (pcWord s).toNat = pc ∧ (spBits s).toNat = sp ∧
      ∀ k : SlotIx, (slotWord k s).toNat = slot k)

/-- Derived (the invariant of the model, from 10_state.md R12, R14, R17, R19, R20 and 50_interfaces.md R98; memory's
canonical form in it is the model's choice, notes/assumptions/10.md): it holds at reset. -/
def Obligations.InvariantHoldsAtReset : Prop := Inv State.reset

/-- Derived (the same invariant): every step keeps it, from every state that meets it. -/
def Obligations.StepKeepsTheInvariant : Prop :=
  ∀ s t : State, Inv s → step s = .next t → Inv t

/-- Derived (the same invariant; the host's operations are 50_interfaces.md R91 to R94): every host operation keeps
it. -/
def Obligations.HostOperationsKeepTheInvariant : Prop :=
  ∀ (op : HostOp) (s t : State), Inv s → applyHostOp op s = .next t → Inv t

/-- Derived (10_state.md R14, R17, R19 and 60_exceptions.md R101, marked derived there): every state the core and the
host can reach keeps the invariant, so `pc` is at most 0x1000, and a refused fetch was at 0x0FFF or 0x1000. -/
def Obligations.ReachableStatesAreInRange : Prop :=
  ∀ s : State, Reachable s →
    Inv s ∧ (s.cause = .outOfBoundsFetch → s.info = 0x0FFF ∨ s.info = 0x1000)

/-- Derived (10_state.md R18; Idle and Faulted are decision D3, their absorption decision D11): the complete list of
`status` transitions of the two agents. -/
def Obligations.StatusTransitionsAreTheListed : Prop :=
  ∀ (m : Move) (s t : State), move m s = .next t → t.status ≠ s.status →
    (m = .host .reset ∧ t.status = .idle) ∨
    (m = .host .run ∧ s.status = .idle ∧ t.status = .running) ∨
    (m = .core ∧ s.status = .running ∧ t.status = .halted ∧ AboutToRun .halt s) ∨
    (m = .core ∧ s.status = .running ∧ t.status = .faulted)

/-- Derived (40_fetch_decode_dispatch.md section 5: "transitions to *Halted* only via the no-op/zero opcode"). -/
def Obligations.HaltedOnlyByTheZeroOpcode : Prop :=
  ∀ s t : State, s.status = .running → step s = .next t →
    (t.status = .halted ↔ s.pc.val ≤ 0x0FFE ∧ opcodeAtPc s = 0x0000)

/-- Derived (60_exceptions.md R108, R116; decision D11): a core that is Halted or Faulted is left as it is by every
move but Reset. -/
def Obligations.EndedStatesAreLeftOnlyByReset : Prop :=
  ∀ (m : Move) (s t : State), Ended s → m ≠ .host .reset → move m s = .next t → t = s

/-- Derived (the table of 50_interfaces.md section 1; what Inspect shows is R95 with decision D25, as the model reads
them in notes/assumptions/7.md, DEDUCED; that an operation not permitted is refused is notes/assumptions/6.md): the
status in which each host operation is a move, Run ignored outside Idle, Inspect showing `status` always and the rest
of the state exactly unless Running, and the core acting only while Running. -/
def Obligations.HostOperationsByStatus : Prop :=
  ∀ s : State,
    (∃ t, applyHostOp .reset s = .next t) ∧
    (∀ a v, (∃ t, applyHostOp (.loadByte a v) s = .next t) ↔ s.status = .idle) ∧
    (∀ i v, (∃ t, applyHostOp (.setReg i v) s = .next t) ↔ s.status = .idle) ∧
    (s.status = .idle → applyHostOp .run s = .next { s with status := .running }) ∧
    (s.status ≠ .idle → applyHostOp .run s = .next s) ∧
    (inspect s).status = s.status ∧ (s.status ≠ .running → (inspect s).rest = some s) ∧
    (s.status = .running → (inspect s).rest = none) ∧
    (∀ t, step s = .next t → t ≠ s → s.status = .running)

/-- R92: LoadByte, while Idle only, sets one byte and nothing else, a later one replaces an earlier one, and the two that place an
instruction word make a fetch there read it and change no other byte. -/
def Obligations.LoadByteSetsOneByte : Prop :=
  (∀ (addr : Addr) (v : Byte) (s : State), s.status = .idle →
    ∃ t, applyHostOp (.loadByte addr v) s = .next t ∧ t.mem.read addr.toNat = v ∧
      (∀ b, b ≠ addr.toNat → t.mem.read b = s.mem.read b) ∧ t = { s with mem := t.mem }) ∧
  (∀ (addr : Addr) (v : Byte) (s t : State), s.status ≠ .idle →
    applyHostOp (.loadByte addr v) s ≠ .next t) ∧
  (∀ (addr : Addr) (v w : Byte) (s : State), s.status = .idle →
    ∃ t, applyHostOps [.loadByte addr v, .loadByte addr w] s = .next t ∧
      t.mem.read addr.toNat = w) ∧
  (∀ (addr : Addr) (op : Word) (s : State), s.status = .idle → addr.toNat ≤ 0xFFE →
    ∃ (next : Addr) (t : State), next.toNat = addr.toNat + 1 ∧
      loadWordOps addr op = some [.loadByte addr (hiByte op), .loadByte next (loByte op)] ∧
      applyHostOps [.loadByte addr (hiByte op), .loadByte next (loByte op)] s = .next t ∧
      t.mem.wordAt addr.toNat = op ∧
      (∀ b, b ≠ addr.toNat → b ≠ addr.toNat + 1 → t.mem.read b = s.mem.read b) ∧
      t = { s with mem := t.mem })

/-- Derived (50_interfaces.md R92: "There is no LoadByte with `addr > 0xFFF`"; 20_memory.md R43: "Addresses do not
wrap"; that no operation at all then stands for the placement is the model's choice, notes/assumptions/11.md): an
instruction word can be placed exactly at 0x000 to 0xFFE, and each operation that places one is a LoadByte at one of
its two addresses. -/
def Obligations.WordPlacementStaysInMemory : Prop :=
  (∀ (addr : Addr) (op : Word), (∃ ops, loadWordOps addr op = some ops) ↔ addr.toNat ≤ 0xFFE) ∧
  (∀ (addr : Addr) (op : Word) (ops : List HostOp), loadWordOps addr op = some ops →
    ∀ o ∈ ops, ∃ (a : Addr) (v : Byte), o = .loadByte a v ∧
      (a.toNat = addr.toNat ∨ a.toNat = addr.toNat + 1))

/-- Derived (50_interfaces.md R93; that the host may preset registers is decision D8): SetReg sets one register, any
register, and nothing else. -/
def Obligations.SetRegSetsOneRegister : Prop :=
  ∀ (i : RegIx) (v : Byte) (s : State), s.status = .idle →
    ∃ t, applyHostOp (.setReg i v) s = .next t ∧
      (∀ r, readReg r t = if r = i then v else readReg r s) ∧ t = { s with x := t.x }

/-- Derived (50_interfaces.md R97; decision D9): no host operation but Reset writes `pc`, `sp`, a slot, `cause` or
`info`, and only Run writes `status`. -/
def Obligations.HostCannotWriteControlState : Prop :=
  ∀ (op : HostOp) (s t : State), op ≠ .reset → applyHostOp op s = .next t →
    t.pc = s.pc ∧ t.sp = s.sp ∧ t.stk = s.stk ∧ t.cause = s.cause ∧ t.info = s.info ∧
    (op ≠ .run → t.status = s.status)

/-- Derived (50_interfaces.md R98, marked derived there; memory's canonical form is the model's choice,
notes/assumptions/10.md): the boot order, some loads and presets between Reset and Run, leads from any state to
exactly the launch states: any canonical memory, any registers, all else as reset leaves it, and Running. -/
def Obligations.BootReachesExactlyTheLaunchStates : Prop :=
  (∀ (s : State) (m : Memory) (x : Vector Byte 16), m.wf = true →
    ∃ ops : List HostOp, (∀ op ∈ ops, op ≠ .reset ∧ op ≠ .run) ∧
      applyHostOps (bootOps ops) s = .next (launchState m x)) ∧
  (∀ (s : State) (ops : List HostOp), (∀ op ∈ ops, op ≠ .reset ∧ op ≠ .run) →
    ∃ (m : Memory) (x : Vector Byte 16), m.wf = true ∧
      applyHostOps (bootOps ops) s = .next (launchState m x))

/-- R121: the first fetch of every run reads `mem[0]` and `mem[1]`, and no host operation moves the entry point. -/
def Obligations.RunsStartAtAddressZero : Prop :=
  (∀ (m : Memory) (x : Vector Byte 16), ∃ t,
    fetch (launchState m x) = .opcode (joinBytes (m.read 0) (m.read 1)) t) ∧
  (∀ (op : HostOp) (s t : State), s.pc = 0 → applyHostOp op s = .next t → t.pc = 0)

/-- Derived (20_memory.md R41): the program text is constant for the whole run. -/
def Obligations.MemoryIsConstantDuringARun : Prop :=
  ∀ (n : Nat) (s t : State), runSteps n s = .next t → t.mem = s.mem

/-- Derived (40_fetch_decode_dispatch.md R64: "Dispatch selects by the opcode alone, never by any state"; 10_state.md
R11: no instruction is conditional): however the registers are set, any number of steps goes through the same
instructions, so two runs from states that differ in their registers alone differ in their registers alone. -/
def Obligations.RegistersNeverSteerControl : Prop :=
  ∀ (n : Nat) (s : State) (x : Vector Byte 16), ∃ (t : State) (x' : Vector Byte 16),
    runSteps n s = .next t ∧ runSteps n { s with x := x } = .next { t with x := x' }

/-- Derived (42_call_return.md R80, marked derived there): a CALL at address A that succeeds, followed by any steps
that keep its return address on the stack, and a RETURN when `sp` is again one more than before the CALL: `pc` is
A + 2 and `sp` is what it was. -/
def Obligations.ReturnResumesAfterItsCall : Prop :=
  ∀ (nnn : Addr) (n : Nat) (s s1 s2 : State),
    AboutToRun (.call nnn) s → s.sp.val < 16 → step s = .next s1 →
    StaysAbove s.sp.val n s1 s2 → AboutToRun .ret s2 → s2.sp.val = s.sp.val + 1 →
    ∃ t, step s2 = .next t ∧ t.pc.val = s.pc.val + 2 ∧ t.sp = s.sp

/-- Derived (40_fetch_decode_dispatch.md R70, marked derived there, with its bound): from every Running state that
meets the invariant, launch states among them, the core is Halted or Faulted after fewer than 2 x 2048^17 steps. -/
def Obligations.EveryRunEnds : Prop :=
  ∀ s : State, Inv s → s.status = .running →
    ∃ (n : Nat) (t : State), n < 2 * 2048 ^ 17 ∧ runSteps n s = .next t ∧ Ended t

/-- Derived (50_interfaces.md R92, R94; that one operation stands for the loads and the Run is the model's,
notes/assumptions/2.md): an instruction word placed for the next fetch is the instruction the next step runs, in the
state whose `pc` is advanced past it. -/
def Obligations.PlacedWordIsTheNextInstruction : Prop :=
  ∀ (i : Instr) (s w : State), w = s.withFetchWord 16 (encodeWord i).toNat →
    step w = exec i { w with pc := w.pc + 2 } ∧ w.x = s.x ∧ w.stk = s.stk ∧ w.sp = s.sp ∧
    (s.pc.val ≤ 0x0FFE → w.pc = s.pc)
end

