-- ==== Sys2Proof/Laws/Decode.lean ====
section
/-! SUPPORT. The decoder: its answers as cases, and the parts of a word. -/

namespace Sys2Proof

/-- Everything the decoder can answer (R56). -/
theorem decodeWord_cases (op : Word) :
    (op = 0x0000#16 ∧ decodeWord op = .ok .halt) ∨
    (op = 0x00EE#16 ∧ decodeWord op = .ok .ret) ∨
    (opC op = 0x2#4 ∧ decodeWord op = .ok (.call (opNnn op))) ∨
    (opC op = 0x8#4 ∧ opD op = 0x4#4 ∧
      decodeWord op = .ok (.add (regOfNibble (opX op)) (regOfNibble (opY op)))) ∨
    (isUnimplemented op = true ∧ decodeWord op = .error (.unimplementedOpcode op)) := by
  by_cases h1 : isHalt op = true
  · exact .inl ⟨by simpa [isHalt] using h1, by simp only [decodeWord, h1, if_true]⟩
  by_cases h2 : isReturn op = true
  · exact .inr (.inl ⟨by simpa [isReturn] using h2, by simp [decodeWord, h1, h2]⟩)
  by_cases h3 : isCall op = true
  · exact .inr (.inr (.inl ⟨by simpa [isCall] using h3, by simp [decodeWord, h1, h2, h3]⟩))
  by_cases h4 : isAdd op = true
  · have h4' : opC op = 0x8#4 ∧ opD op = 0x4#4 := by simpa [isAdd] using h4
    exact .inr (.inr (.inr (.inl ⟨h4'.1, h4'.2, by simp [decodeWord, h1, h2, h3, h4]⟩)))
  · exact .inr (.inr (.inr (.inr ⟨by simp [isUnimplemented, h1, h2, h3, h4],
      by simp [decodeWord, h1, h2, h3, h4]⟩)))

/-- An opcode that is no instruction is rejected by its own value (R51, R104). -/
theorem decodeWord_error {op : Word} {e : DecodeError} (h : decodeWord op = .error e) :
    e = .unimplementedOpcode op ∧ isUnimplemented op = true := by
  obtain ⟨-, h'⟩ | ⟨-, h'⟩ | ⟨-, h'⟩ | ⟨-, -, h'⟩ | ⟨hu, h'⟩ := decodeWord_cases op <;> rw [h'] at h
  all_goals first | cases h; exact ⟨rfl, hu⟩ | cases h

theorem joinBytes_hi_lo (op : Word) : joinBytes (hiByte op) (loByte op) = op := by
  simp only [joinBytes, hiByte, loByte]
  apply BitVec.eq_of_toNat_eq
  simp only [BitVec.toNat_append, BitVec.extractLsb'_toNat, Nat.shiftRight_zero]
  rw [← Nat.shiftLeft_add_eq_or_of_lt (Nat.mod_lt _ (by decide)), Nat.shiftLeft_eq,
    Nat.shiftRight_eq_div_pow]
  have := op.isLt
  omega

theorem joinBytes_toNat (hi lo : Byte) : (joinBytes hi lo).toNat = hi.toNat * 256 + lo.toNat := by
  simp only [joinBytes, BitVec.toNat_append]
  rw [← Nat.shiftLeft_add_eq_or_of_lt lo.isLt, Nat.shiftLeft_eq]

theorem opC_toNat (op : Word) : (opC op).toNat = op.toNat / 4096 := by
  simp only [opC, BitVec.extractLsb'_toNat, Nat.shiftRight_eq_div_pow]
  have := op.isLt
  omega

theorem opX_toNat (op : Word) : (opX op).toNat = op.toNat / 256 % 16 := by
  simp [opX, BitVec.extractLsb'_toNat, Nat.shiftRight_eq_div_pow]

theorem opY_toNat (op : Word) : (opY op).toNat = op.toNat / 16 % 16 := by
  simp [opY, BitVec.extractLsb'_toNat, Nat.shiftRight_eq_div_pow]

theorem opD_toNat (op : Word) : (opD op).toNat = op.toNat % 16 := by
  simp [opD, BitVec.extractLsb'_toNat]

theorem opNnn_toNat (op : Word) : (opNnn op).toNat = op.toNat % 4096 := by
  simp [opNnn, BitVec.extractLsb'_toNat]

/-! ### The control signals as arithmetic on the opcode -/

theorem isHalt_iff (op : Word) : isHalt op = true ↔ op.toNat = 0x0000 := by
  simp [isHalt, BitVec.toNat_eq]

theorem isReturn_iff (op : Word) : isReturn op = true ↔ op.toNat = 0x00EE := by
  simp [isReturn, BitVec.toNat_eq]

theorem isCall_iff (op : Word) : isCall op = true ↔ op.toNat / 4096 = 2 := by
  simp [isCall, BitVec.toNat_eq, opC_toNat]

theorem isAdd_iff (op : Word) : isAdd op = true ↔ op.toNat / 4096 = 8 ∧ op.toNat % 16 = 4 := by
  simp [isAdd, BitVec.toNat_eq, opC_toNat, opD_toNat]

/-- The decoder on bytes is the decoder on the word they make. -/
theorem decode_cons_cons (hi lo : Byte) (rest rest' : List Byte) (i : Instr) :
    decode (hi :: lo :: rest) = .ok (i, rest') ↔
      decodeWord (joinBytes hi lo) = .ok i ∧ rest = rest' := by
  show (match decodeWord (joinBytes hi lo) with
    | .ok j => Except.ok (j, rest)
    | .error e => .error e) = .ok (i, rest') ↔ _
  cases decodeWord (joinBytes hi lo) <;> simp

theorem nibbleOfReg_toNat (r : RegIx) : (nibbleOfReg r).toNat = r.val := by
  have := r.isLt
  simp only [nibbleOfReg, BitVec.toNat_ofNat]
  omega

@[simp] theorem regOfNibble_nibbleOfReg (r : RegIx) : regOfNibble (nibbleOfReg r) = r :=
  Fin.ext (nibbleOfReg_toNat r)

@[simp] theorem nibbleOfReg_regOfNibble (n : Nibble) : nibbleOfReg (regOfNibble n) = n :=
  BitVec.eq_of_toNat_eq (nibbleOfReg_toNat (regOfNibble n))

end Sys2Proof
end

