-- ==== Sys2Proof/Laws/State.lean ====
section
/-! SUPPORT. For every named update of the state, what each field is after it. -/

namespace Sys2Proof.Machine

@[simp] theorem writeReg_x (i : RegIx) (v : Byte) (s : State) : (writeReg i v s).x = s.x.set i v := rfl
@[simp] theorem writeReg_mem (i : RegIx) (v : Byte) (s : State) : (writeReg i v s).mem = s.mem := rfl
@[simp] theorem writeReg_pc (i : RegIx) (v : Byte) (s : State) : (writeReg i v s).pc = s.pc := rfl
@[simp] theorem writeReg_stk (i : RegIx) (v : Byte) (s : State) : (writeReg i v s).stk = s.stk := rfl
@[simp] theorem writeReg_sp (i : RegIx) (v : Byte) (s : State) : (writeReg i v s).sp = s.sp := rfl
@[simp] theorem writeReg_status (i : RegIx) (v : Byte) (s : State) : (writeReg i v s).status = s.status := rfl
@[simp] theorem writeReg_cause (i : RegIx) (v : Byte) (s : State) : (writeReg i v s).cause = s.cause := rfl
@[simp] theorem writeReg_info (i : RegIx) (v : Byte) (s : State) : (writeReg i v s).info = s.info := rfl

@[simp] theorem writeFlag_x (v : Byte) (s : State) : (writeFlag v s).x = s.x.set (15 : RegIx) v := rfl
@[simp] theorem writeFlag_mem (v : Byte) (s : State) : (writeFlag v s).mem = s.mem := rfl
@[simp] theorem writeFlag_pc (v : Byte) (s : State) : (writeFlag v s).pc = s.pc := rfl
@[simp] theorem writeFlag_stk (v : Byte) (s : State) : (writeFlag v s).stk = s.stk := rfl
@[simp] theorem writeFlag_sp (v : Byte) (s : State) : (writeFlag v s).sp = s.sp := rfl
@[simp] theorem writeFlag_status (v : Byte) (s : State) : (writeFlag v s).status = s.status := rfl
@[simp] theorem writeFlag_cause (v : Byte) (s : State) : (writeFlag v s).cause = s.cause := rfl
@[simp] theorem writeFlag_info (v : Byte) (s : State) : (writeFlag v s).info = s.info := rfl

@[simp] theorem setPc_x (a : PcValue) (s : State) : (setPc a s).x = s.x := rfl
@[simp] theorem setPc_mem (a : PcValue) (s : State) : (setPc a s).mem = s.mem := rfl
@[simp] theorem setPc_pc (a : PcValue) (s : State) : (setPc a s).pc = a := rfl
@[simp] theorem setPc_stk (a : PcValue) (s : State) : (setPc a s).stk = s.stk := rfl
@[simp] theorem setPc_sp (a : PcValue) (s : State) : (setPc a s).sp = s.sp := rfl
@[simp] theorem setPc_status (a : PcValue) (s : State) : (setPc a s).status = s.status := rfl
@[simp] theorem setPc_cause (a : PcValue) (s : State) : (setPc a s).cause = s.cause := rfl
@[simp] theorem setPc_info (a : PcValue) (s : State) : (setPc a s).info = s.info := rfl

@[simp] theorem advancePc_x (s : State) : (advancePc s).x = s.x := rfl
@[simp] theorem advancePc_mem (s : State) : (advancePc s).mem = s.mem := rfl
@[simp] theorem advancePc_pc (s : State) : (advancePc s).pc = s.pc + 2 := rfl
@[simp] theorem advancePc_stk (s : State) : (advancePc s).stk = s.stk := rfl
@[simp] theorem advancePc_sp (s : State) : (advancePc s).sp = s.sp := rfl
@[simp] theorem advancePc_status (s : State) : (advancePc s).status = s.status := rfl
@[simp] theorem advancePc_cause (s : State) : (advancePc s).cause = s.cause := rfl
@[simp] theorem advancePc_info (s : State) : (advancePc s).info = s.info := rfl

@[simp] theorem setStatus_x (v : Status) (s : State) : (setStatus v s).x = s.x := rfl
@[simp] theorem setStatus_mem (v : Status) (s : State) : (setStatus v s).mem = s.mem := rfl
@[simp] theorem setStatus_pc (v : Status) (s : State) : (setStatus v s).pc = s.pc := rfl
@[simp] theorem setStatus_stk (v : Status) (s : State) : (setStatus v s).stk = s.stk := rfl
@[simp] theorem setStatus_sp (v : Status) (s : State) : (setStatus v s).sp = s.sp := rfl
@[simp] theorem setStatus_status (v : Status) (s : State) : (setStatus v s).status = v := rfl
@[simp] theorem setStatus_cause (v : Status) (s : State) : (setStatus v s).cause = s.cause := rfl
@[simp] theorem setStatus_info (v : Status) (s : State) : (setStatus v s).info = s.info := rfl

@[simp] theorem pushSlot_x (k : SlotIx) (v : PcValue) (s : State) : (pushSlot k v s).x = s.x := rfl
@[simp] theorem pushSlot_mem (k : SlotIx) (v : PcValue) (s : State) : (pushSlot k v s).mem = s.mem := rfl
@[simp] theorem pushSlot_pc (k : SlotIx) (v : PcValue) (s : State) : (pushSlot k v s).pc = s.pc := rfl
@[simp] theorem pushSlot_stk (k : SlotIx) (v : PcValue) (s : State) : (pushSlot k v s).stk = s.stk.set k v := rfl
@[simp] theorem pushSlot_sp (k : SlotIx) (v : PcValue) (s : State) : (pushSlot k v s).sp = k.succ := rfl
@[simp] theorem pushSlot_status (k : SlotIx) (v : PcValue) (s : State) : (pushSlot k v s).status = s.status := rfl
@[simp] theorem pushSlot_cause (k : SlotIx) (v : PcValue) (s : State) : (pushSlot k v s).cause = s.cause := rfl
@[simp] theorem pushSlot_info (k : SlotIx) (v : PcValue) (s : State) : (pushSlot k v s).info = s.info := rfl

@[simp] theorem popSlot_x (k : SlotIx) (s : State) : (popSlot k s).x = s.x := rfl
@[simp] theorem popSlot_mem (k : SlotIx) (s : State) : (popSlot k s).mem = s.mem := rfl
@[simp] theorem popSlot_pc (k : SlotIx) (s : State) : (popSlot k s).pc = s.pc := rfl
@[simp] theorem popSlot_stk (k : SlotIx) (s : State) : (popSlot k s).stk = s.stk := rfl
@[simp] theorem popSlot_sp (k : SlotIx) (s : State) : (popSlot k s).sp = k.castSucc := rfl
@[simp] theorem popSlot_status (k : SlotIx) (s : State) : (popSlot k s).status = s.status := rfl
@[simp] theorem popSlot_cause (k : SlotIx) (s : State) : (popSlot k s).cause = s.cause := rfl
@[simp] theorem popSlot_info (k : SlotIx) (s : State) : (popSlot k s).info = s.info := rfl

@[simp] theorem takeFatal_x (c : Cause) (v : Word) (s : State) : (takeFatal c v s).x = s.x := rfl
@[simp] theorem takeFatal_mem (c : Cause) (v : Word) (s : State) : (takeFatal c v s).mem = s.mem := rfl
@[simp] theorem takeFatal_pc (c : Cause) (v : Word) (s : State) : (takeFatal c v s).pc = s.pc := rfl
@[simp] theorem takeFatal_stk (c : Cause) (v : Word) (s : State) : (takeFatal c v s).stk = s.stk := rfl
@[simp] theorem takeFatal_sp (c : Cause) (v : Word) (s : State) : (takeFatal c v s).sp = s.sp := rfl
@[simp] theorem takeFatal_status (c : Cause) (v : Word) (s : State) : (takeFatal c v s).status = .faulted := rfl
@[simp] theorem takeFatal_cause (c : Cause) (v : Word) (s : State) : (takeFatal c v s).cause = c := rfl
@[simp] theorem takeFatal_info (c : Cause) (v : Word) (s : State) : (takeFatal c v s).info = v := rfl

@[simp] theorem placeWord_x (a : Nat) (op : Word) (s : State) : (placeWord a op s).x = s.x := rfl
@[simp] theorem placeWord_mem (a : Nat) (op : Word) (s : State) : (placeWord a op s).mem = (s.mem.store a (hiByte op)).store (a + 1) (loByte op) := rfl
@[simp] theorem placeWord_pc (a : Nat) (op : Word) (s : State) : (placeWord a op s).pc = s.pc := rfl
@[simp] theorem placeWord_stk (a : Nat) (op : Word) (s : State) : (placeWord a op s).stk = s.stk := rfl
@[simp] theorem placeWord_sp (a : Nat) (op : Word) (s : State) : (placeWord a op s).sp = s.sp := rfl
@[simp] theorem placeWord_status (a : Nat) (op : Word) (s : State) : (placeWord a op s).status = s.status := rfl
@[simp] theorem placeWord_cause (a : Nat) (op : Word) (s : State) : (placeWord a op s).cause = s.cause := rfl
@[simp] theorem placeWord_info (a : Nat) (op : Word) (s : State) : (placeWord a op s).info = s.info := rfl

@[simp] theorem launchState_x (m : Memory) (x : Vector Byte 16) : (launchState m x).x = x := rfl
@[simp] theorem launchState_mem (m : Memory) (x : Vector Byte 16) : (launchState m x).mem = m := rfl
@[simp] theorem launchState_pc (m : Memory) (x : Vector Byte 16) : (launchState m x).pc = 0 := rfl
@[simp] theorem launchState_sp (m : Memory) (x : Vector Byte 16) : (launchState m x).sp = 0 := rfl
@[simp] theorem launchState_status (m : Memory) (x : Vector Byte 16) : (launchState m x).status = .running := rfl

end Sys2Proof.Machine
end

