-- ==== Sys2Proof/Laws/Ops.lean ====
section
/-! SUPPORT. One lemma per shared operation, saying everything it can answer. -/

namespace Sys2Proof.Machine

/-! ### The memory primitives -/

theorem memRead1_ok {s : State} {a : Nat} (h : a < Config.memSize) :
    memRead1 s a = .ok (s.mem.read a) := if_pos h

theorem memRead1_error {s : State} {a : Nat} (h : ¬ a < Config.memSize) :
    memRead1 s a = .error (.noSuchAddress a) := if_neg h

theorem memRead2_ok {s : State} {a : Nat} (h : a ≤ Config.maxFetch) :
    memRead2 s a = .ok (s.mem.wordAt a) := by
  have h0 : a < Config.memSize := by simp only [Config.maxFetch, Config.memSize] at *; omega
  have h1 : a + 1 < Config.memSize := by simp only [Config.maxFetch, Config.memSize] at *; omega
  simp only [memRead2, memRead1_ok h0, memRead1_ok h1, Memory.wordAt]

theorem memWrite1_eq_ok {s t : State} {a : Nat} {v : Byte} :
    memWrite1 a v s = .ok t ↔ a < Config.memSize ∧ t = { s with mem := s.mem.store a v } := by
  unfold memWrite1
  split_ifs with h
  · simp only [Except.ok.injEq, h, true_and, eq_comm]
  · simp only [h, false_and]

/-- Every memory write keeps the canonical form. -/
theorem memWrite1_wf {s t : State} {a : Nat} {v : Byte} (h : memWrite1 a v s = .ok t)
    (hs : s.mem.wf = true) : t.mem.wf = true := by
  obtain ⟨ha, rfl⟩ := memWrite1_eq_ok.1 h
  exact Memory.wf_store hs ha

/-- Placing a word at an address where a fetch can read it keeps the canonical form. -/
theorem placeWord_wf {s : State} {a : Nat} {op : Word} (h : a ≤ Config.maxFetch)
    (hs : s.mem.wf = true) : (placeWord a op s).mem.wf = true := by
  have h0 : a < Config.memSize := by simp only [Config.maxFetch, Config.memSize] at *; omega
  have h1 : a + 1 < Config.memSize := by simp only [Config.maxFetch, Config.memSize] at *; omega
  exact Memory.wf_store (Memory.wf_store hs h0) h1

/-! ### Registers -/

theorem readReg_eq (i : RegIx) (s : State) : readReg i s = s.x[i] := rfl

theorem readReg_writeReg (i j : RegIx) (v : Byte) (s : State) :
    readReg j (writeReg i v s) = if j = i then v else readReg j s := by
  simp only [readReg, writeReg_x, Fin.getElem_fin, Vector.getElem_set, Fin.ext_iff, eq_comm]

theorem readReg_congr {s t : State} (h : t.x = s.x) (i : RegIx) : readReg i t = readReg i s := by
  rw [readReg_eq, readReg_eq, h]

/-! ### The program counter and its values -/

@[simp] theorem pcValueWord_toNat (v : PcValue) : (pcValueWord v).toNat = v.val :=
  Nat.mod_eq_of_lt (v.isLt.trans (by decide))

@[simp] theorem pcWord_toNat (s : State) : (pcWord s).toNat = s.pc.val := pcValueWord_toNat _

/-- In bounds the advance of `pc` does not wrap (R61). -/
theorem advancePc_val {s : State} (h : s.pc.val ≤ Config.maxFetch) :
    (advancePc s).pc.val = s.pc.val + 2 :=
  Nat.mod_eq_of_lt (Nat.lt_of_le_of_lt (Nat.add_le_add_right h 2) (by decide))

/-! ### The call stack -/

theorem freeSlot_eq_some {sp : Fin 17} {k : SlotIx} : freeSlot sp = some k ↔ sp.val = k.val := by
  unfold freeSlot
  split_ifs with h
  · simp [Fin.ext_iff]
  · simp only [false_iff]
    simp only [Config.stackDepth] at h
    omega

theorem freeSlot_eq_none {sp : Fin 17} : freeSlot sp = none ↔ sp = 16 := by
  unfold freeSlot
  split_ifs with h
  · simp only [false_iff, Fin.ext_iff]
    simp only [Config.stackDepth] at h
    exact h.ne
  · simp only [true_iff, Fin.ext_iff]
    simp only [Config.stackDepth] at h
    have := sp.isLt
    show sp.val = 16
    omega

theorem topSlot_eq_some {sp : Fin 17} {k : SlotIx} : topSlot sp = some k ↔ sp.val = k.val + 1 := by
  unfold topSlot
  split_ifs with h
  · simp only [false_iff]
    omega
  · simp only [Option.some.injEq, Fin.ext_iff]
    omega

theorem topSlot_eq_none {sp : Fin 17} : topSlot sp = none ↔ sp = 0 := by
  unfold topSlot
  split_ifs with h <;> simp [Fin.ext_iff, h]

theorem readSlot_eq (k : SlotIx) (s : State) : readSlot k s = s.stk[k] := rfl

@[simp] theorem slotWord_toNat (k : SlotIx) (s : State) : (slotWord k s).toNat = (readSlot k s).val :=
  pcValueWord_toNat _

theorem readSlot_pushSlot (k j : SlotIx) (v : PcValue) (s : State) :
    readSlot j (pushSlot k v s) = if j = k then v else readSlot j s := by
  simp only [readSlot, pushSlot_stk, Fin.getElem_fin, Vector.getElem_set, Fin.ext_iff, eq_comm]

theorem readSlot_congr {s t : State} (h : t.stk = s.stk) (k : SlotIx) :
    readSlot k t = readSlot k s := by
  rw [readSlot_eq, readSlot_eq, h]

@[simp] theorem spBits_toNat (s : State) : (spBits s).toNat = s.sp.val :=
  Nat.mod_eq_of_lt (s.sp.isLt.trans (by decide))

theorem spWord_eq (s : State) : spWord s = BitVec.ofNat 16 s.sp.val := by
  unfold spWord spBits
  generalize s.sp = k
  revert k
  decide

/-! ### Operands and the adder -/

@[simp] theorem targetOperand_val (nnn : Addr) : (targetOperand nnn).val = nnn.toNat := rfl

theorem addResult_toNat (a b : Byte) : (addResult a b).toNat = (a.toNat + b.toNat) % 256 := by
  simp [addResult, addExact]

theorem addExact_comm (a b : Byte) : addExact a b = addExact b a := Nat.add_comm ..

end Sys2Proof.Machine
end

