-- ==== Sys2Proof/Laws/Exec.lean ====
section
/-! SUPPORT. What each meaning can answer, as cases; proofs cite these and do not unfold the meanings. -/

namespace Sys2Proof.Machine

theorem execHalt_eq (s : State) : execHalt s = .next (setStatus .halted s) := rfl

/-- A CALL overflows or pushes (R78). -/
theorem execCall_cases (nnn : Addr) (s : State) :
    (s.sp = 16 ∧ execCall nnn s = .next (raiseStackOverflow s)) ∨
    (∃ k : SlotIx, s.sp.val = k.val ∧
      execCall nnn s = .next (setPc (targetOperand nnn) (pushSlot k s.pc s))) := by
  unfold execCall
  cases h : freeSlot s.sp with
  | none => exact .inl ⟨freeSlot_eq_none.1 h, rfl⟩
  | some k => exact .inr ⟨k, freeSlot_eq_some.1 h, rfl⟩

/-- A RETURN underflows or pops (R79). -/
theorem execRet_cases (s : State) :
    (s.sp = 0 ∧ execRet s = .next (raiseStackUnderflow s)) ∨
    (∃ k : SlotIx, s.sp.val = k.val + 1 ∧
      execRet s = .next (setPc (readSlot k s) (popSlot k s))) := by
  unfold execRet
  cases h : topSlot s.sp with
  | none => exact .inl ⟨topSlot_eq_none.1 h, rfl⟩
  | some k => exact .inr ⟨k, topSlot_eq_some.1 h, rfl⟩

theorem execAdd_eq (x y : RegIx) (s : State) :
    execAdd x y s = .next (writeFlag (addFlag (readReg x s) (readReg y s))
      (writeReg x (addResult (readReg x s) (readReg y s)) s)) := rfl

/-- Everything an instruction can answer: one of six next states. -/
theorem exec_cases (i : Instr) (s : State) :
    (i = .halt ∧ exec i s = .next (setStatus .halted s)) ∨
    (i = .ret ∧ s.sp = 0 ∧ exec i s = .next (raiseStackUnderflow s)) ∨
    (∃ k : SlotIx, i = .ret ∧ s.sp.val = k.val + 1 ∧
      exec i s = .next (setPc (readSlot k s) (popSlot k s))) ∨
    (∃ nnn, i = .call nnn ∧ s.sp = 16 ∧ exec i s = .next (raiseStackOverflow s)) ∨
    (∃ nnn, ∃ k : SlotIx, i = .call nnn ∧ s.sp.val = k.val ∧
      exec i s = .next (setPc (targetOperand nnn) (pushSlot k s.pc s))) ∨
    (∃ x y, i = .add x y ∧ exec i s = .next (writeFlag (addFlag (readReg x s) (readReg y s))
      (writeReg x (addResult (readReg x s) (readReg y s)) s))) := by
  cases i with
  | halt => exact .inl ⟨rfl, rfl⟩
  | ret =>
    obtain ⟨h, e⟩ | ⟨k, h, e⟩ := execRet_cases s
    · exact .inr (.inl ⟨rfl, h, e⟩)
    · exact .inr (.inr (.inl ⟨k, rfl, h, e⟩))
  | call nnn =>
    obtain ⟨h, e⟩ | ⟨k, h, e⟩ := execCall_cases nnn s
    · exact .inr (.inr (.inr (.inl ⟨nnn, rfl, h, e⟩)))
    · exact .inr (.inr (.inr (.inr (.inl ⟨nnn, k, rfl, h, e⟩))))
  | add x y => exact .inr (.inr (.inr (.inr (.inr ⟨x, y, rfl, rfl⟩))))

end Sys2Proof.Machine
end

