-- ==== Sys2Proof/Laws/HostOps.lean ====
section
/-! SUPPORT. What a host operation can do, said once. -/

namespace Sys2Proof.Machine

/-- LoadByte: one byte written while Idle, refused otherwise (R92, R96). -/
theorem hostLoadByte_cases (addr : Addr) (v : Byte) (s : State) :
    (s.status = .idle ∧
      hostLoadByte addr v s = .next { s with mem := s.mem.store addr.toNat v }) ∨
    (s.status ≠ .idle ∧ hostLoadByte addr v s = .refused .loadByteNotIdle) := by
  unfold hostLoadByte
  split_ifs with h
  · rw [memWrite1_eq_ok.2 ⟨addr.isLt, rfl⟩]
    exact .inl ⟨h, rfl⟩
  · exact .inr ⟨h, rfl⟩

/-- What the operations that place a word can be: two LoadBytes at consecutive addresses of memory (R92). -/
theorem loadWordOps_eq_some {addr : Addr} {op : Word} {ops : List HostOp} :
    loadWordOps addr op = some ops ↔
      addr.toNat ≤ Config.maxFetch ∧ (addr + 1).toNat = addr.toNat + 1 ∧
        ops = [.loadByte addr (hiByte op), .loadByte (addr + 1) (loByte op)] := by
  have h1 : addr.toNat ≤ Config.maxFetch → (addr + 1).toNat = addr.toNat + 1 := by
    intro h
    exact Nat.mod_eq_of_lt (Nat.lt_of_le_of_lt (Nat.succ_le_succ h) (by decide))
  unfold loadWordOps
  split_ifs with h
  · simp only [Option.some.injEq, h, h1 h, true_and, eq_comm]
  · simp [h]

/-- Every next state a host operation can answer. -/
theorem applyHostOp_cases {op : HostOp} {s t : State} (h : applyHostOp op s = .next t) :
    (op = .reset ∧ t = State.reset) ∨
    (∃ a v, op = .loadByte a v ∧ s.status = .idle ∧ t = { s with mem := s.mem.store a.toNat v }) ∨
    (∃ i v, op = .setReg i v ∧ s.status = .idle ∧ t = writeReg i v s) ∨
    (op = .run ∧ s.status = .idle ∧ t = setStatus .running s) ∨
    (op = .run ∧ s.status ≠ .idle ∧ t = s) := by
  cases op with
  | reset => cases h; exact .inl ⟨rfl, rfl⟩
  | loadByte a v =>
    rw [applyHostOp] at h
    obtain ⟨hi, e⟩ | ⟨-, e⟩ := hostLoadByte_cases a v s
    · cases e.symm.trans h
      exact .inr (.inl ⟨a, v, rfl, hi, rfl⟩)
    · cases e.symm.trans h
  | setReg i v =>
    simp only [applyHostOp, hostSetReg] at h
    split_ifs at h with hi
    cases h
    exact .inr (.inr (.inl ⟨i, v, rfl, hi, rfl⟩))
  | run =>
    simp only [applyHostOp, hostRun] at h
    split_ifs at h with hi <;> cases h
    · exact .inr (.inr (.inr (.inl ⟨rfl, hi, rfl⟩)))
    · exact .inr (.inr (.inr (.inr ⟨rfl, hi, rfl⟩)))

end Sys2Proof.Machine
end

