-- ==== Sys2Proof/Laws/PerInstr.lean ====
section
/-! SUPPORT. Per-instruction laws about the instruction as it is encoded. -/

namespace Sys2Proof.Laws

/-- The opcode of an instruction is selected by the instruction's own row of the opcode table and by no other row
(R49, R50). -/
def RowMatch.Statement (i : Instr) : Prop :=
  ∀ r ∈ opcodeTable, (r.selects (encodeWord i) = true ↔ r = rowOf i)

theorem RowMatch.halt : RowMatch.Statement .halt := by
  unfold RowMatch.Statement
  decide

theorem RowMatch.ret : RowMatch.Statement .ret := by
  unfold RowMatch.Statement
  decide

/-- The class of a CALL, seen through the mask of CALL's row. -/
theorem RowMatch.call_class (nnn : Addr) : encodeWord (.call nnn) &&& 0xF000#16 = 0x2000#16 := by
  ext i hi
  simp only [encodeWord, BitVec.getElem_and, BitVec.getElem_append]
  interval_cases i <;> simp

/-- Every row fixes the class: a word a row selects has the class of the row's pattern. -/
theorem RowMatch.selects_class {r : OpcodeRow} (hr : r ∈ opcodeTable) {w : Word}
    (h : r.selects w = true) : w &&& 0xF000#16 = r.pattern &&& 0xF000#16 := by
  have masks : ∀ r ∈ opcodeTable, r.mask &&& 0xF000#16 = 0xF000#16 := by decide
  rw [OpcodeRow.selects, beq_iff_eq] at h
  rw [← h, BitVec.and_assoc, masks r hr]

/-- A word whose class is 2 is selected by CALL's row alone. -/
theorem RowMatch.call (nnn : Addr) : RowMatch.Statement (.call nnn) := by
  have only : ∀ r ∈ opcodeTable, r.pattern &&& 0xF000#16 = 0x2000#16 → r = rowOf (.call 0) := by
    decide
  refine fun r hr => ⟨fun h => only r hr ?_, fun h => ?_⟩
  · rw [← RowMatch.selects_class hr h, RowMatch.call_class]
  · rw [h, OpcodeRow.selects, beq_iff_eq]
    exact RowMatch.call_class nnn

/-- A word whose class is 8 and whose sub-opcode is 4 is selected by ADD's row alone. -/
theorem RowMatch.add (x y : RegIx) : RowMatch.Statement (.add x y) := by
  revert x y
  unfold RowMatch.Statement
  decide

end Sys2Proof.Laws
end

