-- ==== Sys2Proof/Laws/Step.lean ====
section
/-! SUPPORT. What a step can do, said once. -/

namespace Sys2Proof.Machine

/-- Everything the fetch unit can answer (R60 to R62). -/
theorem fetch_cases (s : State) :
    (s.status ≠ .running ∧ fetch s = .ended s) ∨
    (s.status = .running ∧ Config.maxFetch < s.pc.val ∧
      fetch s = .ended (raiseOutOfBoundsFetch s)) ∨
    (s.status = .running ∧ s.pc.val ≤ Config.maxFetch ∧
      fetch s = .opcode (opcodeAtPc s) (advancePc s)) := by
  unfold fetch
  split_ifs with h1 h2
  · exact .inr (.inl ⟨h1, h2, rfl⟩)
  · refine .inr (.inr ⟨h1, not_lt.1 h2, ?_⟩)
    rw [memRead2_ok (not_lt.1 h2)]
    rfl
  · exact .inl ⟨h1, rfl⟩

/-- The fetch unit never calls a memory primitive outside its domain. -/
theorem fetch_ne_fault (s : State) (f : Fault) : fetch s ≠ .fault f := by
  obtain ⟨-, h⟩ | ⟨-, -, h⟩ | ⟨-, -, h⟩ := fetch_cases s <;> simp [h]

/-- Everything a step can be: none, an out-of-bounds fetch, one instruction, or an unimplemented opcode (R60). -/
theorem step_cases (s : State) :
    (s.status ≠ .running ∧ step s = .next s) ∨
    (s.status = .running ∧ Config.maxFetch < s.pc.val ∧
      step s = .next (raiseOutOfBoundsFetch s)) ∨
    (∃ i, AboutToRun i s ∧ step s = exec i (advancePc s)) ∨
    (s.status = .running ∧ s.pc.val ≤ Config.maxFetch ∧ isUnimplemented (opcodeAtPc s) = true ∧
      step s = .next (raiseUnimplementedOpcode (opcodeAtPc s) (advancePc s))) := by
  unfold step
  obtain ⟨h, hf⟩ | ⟨h, hb, hf⟩ | ⟨h, hb, hf⟩ := fetch_cases s <;> rw [hf]
  · exact .inl ⟨h, rfl⟩
  · exact .inr (.inl ⟨h, hb, rfl⟩)
  · simp only
    cases hd : decodeWord (opcodeAtPc s) with
    | ok i => exact .inr (.inr (.inl ⟨i, ⟨h, hb, hd⟩, rfl⟩))
    | error e => exact .inr (.inr (.inr ⟨h, hb, (decodeWord_error hd).2, rfl⟩))

@[simp] theorem runSteps_zero (s : State) : runSteps 0 s = .next s := rfl

/-- Running a machine on after one step. -/
theorem core_run_succ (M : Host.Core) {s t : M.State} (h : M.step s = .next t) (n : Nat) :
    M.run (n + 1) s = M.run n t := by
  simp only [Host.Core.run, h]

/-- Running on after one step. -/
theorem runSteps_succ {s t : State} (h : step s = .next t) (n : Nat) :
    runSteps (n + 1) s = runSteps n t :=
  core_run_succ Sys2Proof.core h n

end Sys2Proof.Machine
end

