-- ==== Sys2Proof/Tests/Slice0.lean ====
section
/-! SUPPORT. Small tests on the spec's own vectors (spec/95_test_vectors.md, named in each comment), the smoke test of
the well-formedness checks, and a witness for the hypotheses of every statement that has some. -/

namespace Sys2Proof.Tests

open Sys2Proof.Machine

/-- A Running core with one opcode placed at `pc`, everything else as reset leaves it. -/
def atPc (pc : PcValue) (op : Word) : State :=
  setStatus .running (setPc pc (placeWord pc.val op State.reset))

/-- The next state of an outcome, if it is one. -/
def nextOf : Host.Outcome State Fault Refusal → Option State
  | .next s => some s
  | .fault _ => none
  | .refused _ => none

/-! ### Well-formedness: an ill-formed line for each check of R54, and its largest well-formed neighbour -/

theorem test_wf_call_refuses_0x1000 :
    (AsmInstr.call 0x1000).wellFormed = false ∧ assemble (.call 0x1000) = none := by decide

theorem test_wf_add_refuses_rx_16 :
    (AsmInstr.add 16 0).wellFormed = false ∧ assemble (.add 16 0) = none := by decide

theorem test_wf_add_refuses_ry_16 :
    (AsmInstr.add 0 16).wellFormed = false ∧ assemble (.add 0 16) = none := by decide

theorem test_wf_accepts_the_bounds :
    assemble (.call 0xFFF) = some (.call 0xFFF) ∧ assemble (.add 15 15) = some (.add 15 15) := by
  decide

/-! ### Decoding: the words of R57 and the table VD, bit by bit from R46 and R49 -/

/-- HALT is sixteen zero bits, RETURN 0000 0000 1110 1110 (VD). -/
theorem test_decode_halt_ret :
    decode [0b00000000, 0b00000000] = .ok (.halt, []) ∧
    decode [0b00000000, 0b11101110] = .ok (.ret, []) := by decide

/-- CALL 0xABC is 0010 1010 1011 1100; CALL 0x0EE is not RETURN (VD). -/
theorem test_decode_call :
    decode [0b00101010, 0b10111100] = .ok (.call 0xABC, []) ∧
    decode [0x20, 0xEE] = .ok (.call 0x0EE, []) := by decide

/-- ADD r10, r3 is 1000 1010 0011 0100 (VD). -/
theorem test_decode_add :
    decode [0b10001010, 0b00110100] = .ok (.add 10 3, []) ∧
    decode [0x8F, 0x04] = .ok (.add 15 0, []) := by decide

/-- Neighbours of the four, each unimplemented (VD). -/
theorem test_decode_rejects :
    (([0x0001, 0x00E0, 0x000E, 0x0E0E, 0x0EEE, 0x01EE, 0x1000, 0x10EE, 0x3000, 0x8013, 0x8015,
      0x9004, 0xE0EE, 0xFFFF] : List Word).all isUnimplemented) = true := by decide

/-- The decoder rejects an opcode by its own value. -/
theorem test_decode_rejects_by_name : decode [0x80, 0x15] = .error (.unimplementedOpcode 0x8015) := by
  decide

theorem test_decode_truncated : decode [0x21] = .error .truncated := by decide

/-- The host's probe numbers the bits as the table does: 0x8A34 is ADD r10, r3 (VD). -/
theorem test_decodeTableWord : decodeTableWord 16 0x8A34 = some (.add 10 3) := by decide

/-! ### The instructions -/

/-- VH1: HALT at 0x0004. -/
theorem test_halt : nextOf (step (atPc 0x0004 0x0000)) =
    some { atPc 0x0004 0x0000 with pc := 0x0006, status := .halted } := by decide

/-- VH3: HALT at the last address a fetch can read raises nothing. -/
theorem test_halt_last : nextOf (step (atPc 0x0FFE 0x0000)) =
    some { atPc 0x0FFE 0x0000 with pc := 0x1000, status := .halted } := by decide

/-- VC2: CALL 0x300 at 0x0240 with `sp = 15` fills the stack. -/
theorem test_call_last_slot :
    (nextOf (step { atPc 0x0240 0x2300 with sp := 15 })).map
      (fun t => (readSlot 15 t, t.sp, t.pc, t.status)) = some (0x0242, 16, 0x0300, .running) := by
  decide

/-- VC9: CALL 0xFFF with a full stack overflows; its target is never examined. -/
theorem test_call_overflow :
    nextOf (step { atPc 0x0000 0x2FFF with sp := 16 }) =
      some { atPc 0x0000 0x2FFF with
        sp := 16, pc := 0x0002, status := .faulted, cause := .stackOverflow, info := 0x0010 } := by
  decide

/-- VR1: RETURN at 0x0102 pops 0x0002, and the slot is not cleared. -/
theorem test_ret :
    (nextOf (step (pushSlot 0 0x0002 (atPc 0x0102 0x00EE)))).map
      (fun t => (t.pc, t.sp, readSlot 0 t)) = some (0x0002, 0, 0x0002) := by decide

/-- VR2: RETURN with an empty stack. -/
theorem test_ret_underflow : nextOf (step (atPc 0x0000 0x00EE)) =
    some { atPc 0x0000 0x00EE with
      pc := 0x0002, status := .faulted, cause := .stackUnderflow, info := 0x0000 } := by decide

/-- VA21: ADD r0, r15 with 200 and 100; the old flag is an ordinary operand. -/
theorem test_add_flag_operand :
    (nextOf (step (writeReg 0 200 (writeReg 15 100 (atPc 0x0000 0x80F4))))).map
      (fun t => (readReg 0 t, readReg 15 t, t.pc)) = some (44, 1, 0x0002) := by decide

/-- VA23: ADD r15, r1 with 1 and 5; the sum is lost and the flag remains. -/
theorem test_add_flag_destination :
    (nextOf (step (writeReg 15 1 (writeReg 1 5 (atPc 0x0000 0x8F14))))).map
      (fun t => (readReg 15 t, readReg 1 t)) = some (0, 5) := by decide

/-! ### Fetch and fatal conditions -/

/-- VF2: an odd address fetches normally. -/
theorem test_fetch_odd :
    (nextOf (step (writeReg 0 1 (atPc 0x0FFD 0x8004)))).map
      (fun t => (readReg 0 t, readReg 15 t, t.pc)) = some (2, 0, 0x0FFF) := by decide

/-- VF3: a fetch at 0x0FFF is out of bounds. -/
theorem test_fetch_out_of_bounds :
    (nextOf (step { launchState [] State.reset.x with pc := 0x0FFF })).map
      (fun t => (t.status, t.cause, t.info, t.pc)) =
      some (.faulted, .outOfBoundsFetch, 0x0FFF, 0x0FFF) := by decide

/-- VX7: 0x00E0 is no instruction. -/
theorem test_unimplemented : nextOf (step (atPc 0x0000 0x00E0)) =
    some { atPc 0x0000 0x00E0 with
      pc := 0x0002, status := .faulted, cause := .unimplementedOpcode, info := 0x00E0 } := by decide

/-- The codes of `status` and `cause` (R18, R19) and of a full `sp` in 5 bits (R16). -/
theorem test_codes :
    ([.idle, .running, .halted, .faulted].map statusCode = [0, 1, 2, 3]) ∧
    ([.none, .outOfBoundsFetch, .stackOverflow, .stackUnderflow, .unimplementedOpcode].map causeCode =
      [0, 1, 2, 3, 4]) ∧
    spBits { State.reset with sp := 16 } = 0b10000 := by decide

/-! ### The host -/

/-- VI2: the two LoadBytes of CALL 0x100; the byte 0x00 leaves no entry. -/
theorem test_loadByte :
    ((loadWordOps 0 0x2100).bind fun ops => nextOf (applyHostOps ops State.reset)).map
      (fun t => (t.mem, opcodeAtPc t)) = some ([(0, 0x21)], 0x2100) := by decide

/-- R92: no word can be placed at 0xFFF, its second byte having no LoadByte; at 0xFFE one can. -/
theorem test_loadWordOps_end : loadWordOps 0xFFF 0x1234 = none ∧
    loadWordOps 0xFFE 0x1234 = some [.loadByte 0xFFE 0x12, .loadByte 0xFFF 0x34] := by decide

/-- VI6: Run with nothing loaded, then the first step halts at 0x0002. -/
theorem test_run_empty :
    (nextOf (moves [.host .run, .core] State.reset)).map (fun t => (t.status, t.pc)) =
      some (.halted, 0x0002) := by decide

/-- VI7 and VI9: Run is ignored when Halted; LoadByte while Running is no move. -/
theorem test_host_not_permitted :
    nextOf (applyHostOp .run (setStatus .halted State.reset)) = some (setStatus .halted State.reset) ∧
    nextOf (applyHostOp (.loadByte 0 1) (atPc 0 0)) = none := by decide

/-- R95: Inspect of a Running core shows `status` alone; of an Idle core, everything. -/
theorem test_inspect :
    inspect (atPc 0 0) = ⟨.running, none⟩ ∧ inspect State.reset = ⟨.idle, some State.reset⟩ := by
  decide

/-- A placed word is the first instruction after reset. -/
theorem test_withFetchWord :
    (nextOf (step (State.reset.withFetchWord 16 0x2ABC))).map (fun t => (t.pc, readSlot 0 t)) =
      some (0x0ABC, 0x0002) := by decide

/-! ### Witnesses: for each statement with hypotheses, a state and operands that meet them, at the boundaries where it
has several clauses -/

/-- MemReadIsBigEndian: the last address of the first clause and the first of the second. -/
theorem witness_memRead : memRead2 (atPc 0x0FFE 0x1234) 0xFFE = .ok 0x1234 ∧
    memRead2 (atPc 0x0FFE 0x1234) 0xFFF = .error (.noSuchAddress 0x1000) := by
  exact ⟨rfl, rfl⟩

/-- MemWriteSetsOneByteOnly and MemoryRegistersAndStackAreSeparate: the last address of the first clause, the first of
the second, and an instruction with a next state. -/
theorem witness_memWrite :
    (∃ t, memWrite1 0xFFF 7 State.reset = .ok t ∧ t.mem = [(0xFFF, 7)]) ∧
    memWrite1 0x1000 7 State.reset = .error (.noSuchAddress 0x1000) ∧
    (∃ t, exec .halt State.reset = .next t) := ⟨⟨_, rfl, by decide⟩, rfl, _, rfl⟩

/-- CanonicalMemoriesAreEqual: two canonical memories reached by different writes read the same. -/
theorem witness_canonical :
    (Memory.store (Memory.store [] 0xFFF 1) 0 2).wf = true ∧
    (Memory.store (Memory.store [] 0 2) 0xFFF 1).wf = true ∧
    ∀ a, (Memory.store (Memory.store [] 0xFFF 1) 0 2).read a =
      (Memory.store (Memory.store [] 0 2) 0xFFF 1).read a := by
  exact ⟨by decide, by decide, fun _ => rfl⟩

/-- EncodeOfDecodeIsIdentity: the last ADD. -/
theorem witness_encodeOfDecode : decodeWord 0x8FF4 = .ok (.add 15 15) := by decide

/-- AssemblerAcceptsItsOperandRanges: both ends of each range. -/
theorem witness_assembler :
    (0 ≤ 0xFFF ∧ assemble (.call 0) = some (.call 0)) ∧
    (0xFFF ≤ 0xFFF ∧ assemble (.call 0xFFF) = some (.call 0xFFF)) ∧
    (15 ≤ 15 ∧ 0 ≤ 15 ∧ assemble (.add 15 0) = some (.add 15 0)) := by decide

/-- FetchReadsTwoBytesAndAdvances and EveryOpcodeHasExactlyOneClass: the last `pc` with a fetch. -/
theorem witness_fetch :
    (atPc 0x0FFE 0x1234).status = .running ∧ (atPc 0x0FFE 0x1234).cause = .none ∧
    (atPc 0x0FFE 0x1234).pc.val ≤ 0x0FFE := by decide

/-- StepFollowsThePseudocode and OutOfBoundsFetchIsFatal, each clause at its boundary: no fetch at 0x0FFF and at
0x1000, an instruction at 0x0FFE, an unimplemented opcode at 0x0FFE. -/
theorem witness_step :
    ((atPc 0x0FFF 0).status = .running ∧ 0x0FFE < (atPc 0x0FFF 0).pc.val) ∧
    ((atPc 0x1000 0).status = .running ∧ 0x0FFE < (atPc 0x1000 0).pc.val) ∧
    AboutToRun (.add 0 0) (atPc 0x0FFE 0x8004) ∧
    ((atPc 0x0FFE 0x8005).status = .running ∧ (atPc 0x0FFE 0x8005).pc.val ≤ 0x0FFE ∧
      decodeWord (opcodeAtPc (atPc 0x0FFE 0x8005)) = .error (.unimplementedOpcode 0x8005)) := by
  decide

/-- StepRunsTheDecodedInstruction: the bytes at the last `pc` with a fetch, and any bytes after them. -/
theorem witness_decodedInstruction :
    decode ((atPc 0x0FFE 0x8004).mem.read 0x0FFE :: (atPc 0x0FFE 0x8004).mem.read 0x0FFF :: [7]) =
      .ok (.add 0 0, [7]) := by decide

/-- UnimplementedOpcodeIsFatal: an opcode that is none of the four. -/
theorem witness_unimplemented : (atPc 0 0x1234).status = .running ∧ (atPc 0 0x1234).pc.val ≤ 0x0FFE ∧
    decodeWord (opcodeAtPc (atPc 0 0x1234)) ≠ .ok .halt ∧
    decodeWord (opcodeAtPc (atPc 0 0x1234)) ≠ .ok .ret ∧
    (∀ nnn, decodeWord (opcodeAtPc (atPc 0 0x1234)) ≠ .ok (.call nnn)) ∧
    (∀ x y, decodeWord (opcodeAtPc (atPc 0 0x1234)) ≠ .ok (.add x y)) := by
  have h : decodeWord (opcodeAtPc (atPc 0 0x1234)) = .error (.unimplementedOpcode 0x1234) := by decide
  rw [h]
  exact ⟨by decide, by decide, nofun, nofun, fun _ => nofun, fun _ _ => nofun⟩

/-- NoStepUnlessRunning: each status that is not Running. -/
theorem witness_noStep : State.reset.status ≠ .running ∧
    (setStatus .halted State.reset).status ≠ .running ∧
    (setStatus .faulted State.reset).status ≠ .running := by decide

/-- StackOverflowIsFatal, StackUnderflowIsFatal, and the two clauses of CallPushesAndJumps and ReturnPopsIntoPc where
they meet: `sp` 15 and 16, `sp` 0, 1 and 16. -/
theorem witness_stack :
    (AboutToRun (.call 0x300) { atPc 0x0240 0x2300 with sp := 16 } ∧ 16 ≤ (16 : Fin 17).val) ∧
    (AboutToRun .ret (atPc 0 0x00EE) ∧ (atPc 0 0x00EE).sp.val = 0) ∧
    (15 : Fin 17).val < 16 ∧ 0 < (1 : Fin 17).val ∧ 0 < (16 : Fin 17).val := by decide

/-- EachFatalConditionArisesExactlyWhen, FatalConditionsArePrecise: a Running state without a cause for each of the
four conditions, and for none. -/
theorem witness_fatal :
    ([atPc 0x0FFF 0, { atPc 0 0x2000 with sp := 16 }, atPc 0 0x00EE, atPc 0 0x1234, atPc 0 0].map
      (fun s => (s.status, s.cause, (nextOf (step s)).map (fun t => (t.cause, t.status)))) =
    [(.running, .none, some (.outOfBoundsFetch, .faulted)), (.running, .none, some (.stackOverflow, .faulted)),
     (.running, .none, some (.stackUnderflow, .faulted)),
     (.running, .none, some (.unimplementedOpcode, .faulted)), (.running, .none, some (.none, .halted))]) := by
  decide

/-- HaltEndsTheRun, OnlyCallAndReturnTransferControl and HaltedOnlyByTheZeroOpcode: a state about to run HALT, one
about to run ADD, and their next states. -/
theorem witness_aboutToRun :
    AboutToRun .halt (atPc 0 0) ∧ AboutToRun (.add 3 10) (atPc 0 0x83A4) ∧
    (∃ t, step (atPc 0 0) = .next t) ∧ (∃ t, step (atPc 0 0x83A4) = .next t) :=
  ⟨by decide, by decide, ⟨_, rfl⟩, ⟨_, rfl⟩⟩

/-- AddWritesSumThenFlag, AdditionLosesNoInformation and FlagIsTheUnsignedCarryOut: the last registers that are not
the flag register, equal and different, with their next states, and an opcode of class 8 that is no ADD. -/
theorem witness_add :
    (14 : RegIx) ≠ 15 ∧ (0 : RegIx) ≠ 15 ∧ (14 : RegIx) ≠ 0 ∧
    (∃ t, exec (.add 14 0) (atPc 0 0) = .next t) ∧ (∃ u, exec (.add 0 14) (atPc 0 0) = .next u) ∧
    (∃ t, exec (.add 14 14) (atPc 0 0) = .next t) ∧ (0x8FFF : Word).toNat / 4096 = 8 ∧
    (0x8FFF : Word).toNat % 16 ≠ 4 :=
  ⟨by decide, by decide, by decide, ⟨_, rfl⟩, ⟨_, rfl⟩, ⟨_, rfl⟩, by decide, by decide⟩

/-- HaltCallReturnIgnoreRegisters and InstructionFrames: an instruction of each kind, with a next state. -/
theorem witness_frames :
    (∀ a b, Instr.call 0 ≠ .add a b) ∧ (∃ t, exec (.call 0) State.reset = .next t) ∧
    (∃ t, exec .ret State.reset = .next t) ∧ (∃ t, exec (.add 0 1) State.reset = .next t) :=
  ⟨nofun, ⟨_, rfl⟩, ⟨_, rfl⟩, ⟨_, rfl⟩⟩

/-- ValuesThatAreNoStateDoNotExist: the largest value of each, in one state. -/
theorem witness_values :
    (pcWord { atPc 0x1000 0 with sp := 16, stk := Vector.replicate 16 0x1000 }).toNat = 0x1000 ∧
    (spBits { atPc 0x1000 0 with sp := 16, stk := Vector.replicate 16 0x1000 }).toNat = 16 ∧
    (slotWord 15 { atPc 0x1000 0 with sp := 16, stk := Vector.replicate 16 0x1000 }).toNat = 0x1000 := by
  decide

/-- StepKeepsTheInvariant and EveryRunEnds: a Running state that meets the invariant, with a next state. -/
theorem witness_invariant_step :
    Inv (atPc 0 0x2FFE) ∧ (atPc 0 0x2FFE).status = .running ∧ ∃ t, step (atPc 0 0x2FFE) = .next t :=
  ⟨by decide, by decide, ⟨_, rfl⟩⟩

/-- HostOperationsKeepTheInvariant and HostCannotWriteControlState: each operation has a next state at reset. -/
theorem witness_host :
    Inv State.reset ∧ HostOp.run ≠ .reset ∧
    (∃ t, applyHostOp .reset State.reset = .next t) ∧
    (∃ t, applyHostOp (.loadByte 0xFFF 1) State.reset = .next t) ∧
    (∃ t, applyHostOp (.setReg 15 1) State.reset = .next t) ∧
    (∃ t, applyHostOp .run State.reset = .next t) :=
  ⟨by decide, by decide, ⟨_, rfl⟩, ⟨_, rfl⟩, ⟨_, rfl⟩, ⟨_, rfl⟩⟩

/-- ReachableStatesAreInRange: P5c, the run of CALL 0xFFF, reaches a refused fetch at 0x0FFF. -/
theorem witness_reachable : ∃ s, Reachable s ∧ s.cause = .outOfBoundsFetch :=
  ⟨_, ⟨[.host (.loadByte 0 0x2F), .host (.loadByte 1 0xFF), .host .run, .core, .core], rfl⟩, by decide⟩

/-- StatusTransitionsAreTheListed: one move of each of the four kinds. -/
theorem witness_transitions :
    (nextOf (move (.host .reset) (atPc 0 0))).map (·.status) = some .idle ∧
    (nextOf (move (.host .run) State.reset)).map (·.status) = some .running ∧
    (nextOf (move .core (atPc 0 0))).map (·.status) = some .halted ∧
    (nextOf (move .core (atPc 0 1))).map (·.status) = some .faulted := by decide

/-- EndedStatesAreLeftOnlyByReset: both ends of a run, and a move that is not Reset. -/
theorem witness_ended :
    Ended (setStatus .halted State.reset) ∧ Ended (setStatus .faulted State.reset) ∧
    Move.host .run ≠ .host .reset ∧
    (∃ t, move (.host .run) (setStatus .halted State.reset) = .next t) :=
  ⟨by decide, by decide, by decide, ⟨_, rfl⟩⟩

/-- HostOperationsByStatus: an Idle and a Running state, and a step that changes the state. -/
theorem witness_hostByStatus :
    State.reset.status = .idle ∧ (setStatus .halted State.reset).status ≠ .idle ∧
    (setStatus .halted State.reset).status ≠ .running ∧
    (∃ t, step (atPc 0 0) = .next t ∧ t ≠ atPc 0 0) :=
  ⟨by decide, by decide, by decide, ⟨_, rfl, by decide⟩⟩

/-- LoadByteSetsOneByte and SetRegSetsOneRegister: Idle, the last address at which a word can be placed, and a status
that is not Idle. -/
theorem witness_load : State.reset.status = .idle ∧ (0xFFE : Addr).toNat ≤ 0xFFE ∧
    (atPc 0 0).status ≠ .idle := by decide

/-- WordPlacementStaysInMemory: the last address at which a word can be placed. -/
theorem witness_placement : ∃ ops, loadWordOps 0xFFE 0x8004 = some ops := ⟨_, rfl⟩

/-- BootReachesExactlyTheLaunchStates: a canonical memory, and a list of loads and presets. -/
theorem witness_boot :
    Memory.wf [(0, 0x20), (0xFFF, 1)] = true ∧
    (∀ op ∈ [HostOp.loadByte 0xFFF 1, .setReg 15 200], op ≠ .reset ∧ op ≠ .run) := by decide

/-- RunsStartAtAddressZero: an operation at `pc = 0` with a next state. -/
theorem witness_entry : State.reset.pc = 0 ∧ ∃ t, applyHostOp .run State.reset = .next t :=
  ⟨rfl, ⟨_, rfl⟩⟩

/-- MemoryIsConstantDuringARun: one step with a next state. -/
theorem witness_runSteps : ∃ t, runSteps 1 (atPc 0 0x2ABC) = .next t := ⟨_, rfl⟩

/-- ReturnResumesAfterItsCall: S3, CALL 0x008 at 0 and a RETURN at 0x008, with no step between. -/
theorem witness_callReturn :
    ∃ s1, AboutToRun (.call 0x008) (placeWord 8 0x00EE (atPc 0 0x2008)) ∧
      (placeWord 8 0x00EE (atPc 0 0x2008)).sp.val < 16 ∧
      step (placeWord 8 0x00EE (atPc 0 0x2008)) = .next s1 ∧
      StaysAbove 0 0 s1 s1 ∧ AboutToRun .ret s1 ∧ s1.sp.val = 0 + 1 :=
  ⟨_, by decide, by decide, rfl, ⟨by decide, rfl⟩, by decide, by decide⟩

end Sys2Proof.Tests
end

section
/-! Proofs of the statements on the data of a state: canonical memories (10_state.md R12, notes/assumptions/10.md) and
the ranges of `pc`, `sp` and the slots (10_state.md R14, R16, R17, notes/assumptions/4.md). -/

namespace Sys2Proof.Machine

/-! ### Canonical memories -/

theorem Memory.read_cons_self (k : Nat) (w : Byte) (m : Memory) : Memory.read ((k, w) :: m) k = w :=
  if_pos rfl

/-- A canonical memory stays so when its lower bound is raised to its first address. -/
theorem Memory.wfFrom_head {lo k : Nat} {w : Byte} {m : Memory}
    (hm : Memory.wfFrom lo ((k, w) :: m) = true) : Memory.wfFrom k ((k, w) :: m) = true := by
  rw [Memory.wfFrom_cons] at hm ⊢
  exact ⟨le_rfl, hm.2⟩

/-- The first address of a canonical memory does not read as an unlisted one. -/
theorem Memory.read_head_ne_unlistedByte {lo k : Nat} {w : Byte} {m : Memory}
    (hm : Memory.wfFrom lo ((k, w) :: m) = true) :
    Memory.read ((k, w) :: m) k ≠ unlistedByte := by
  obtain ⟨-, -, hw, -⟩ := (Memory.wfFrom_cons ..).1 hm
  rwa [Memory.read_cons_self]

/-- An address that does not read as an unlisted one is listed, so it is not below the lower bound. -/
theorem Memory.le_of_read_ne_unlistedByte {lo a : Nat} {m : Memory} (hm : Memory.wfFrom lo m = true)
    (ha : m.read a ≠ unlistedByte) : lo ≤ a :=
  not_lt.1 fun hlt => ha (Memory.read_below hm hlt)

/-- In a canonical memory, what the whole list reads determines what its tail reads. -/
theorem Memory.read_tail {k a : Nat} {m : Memory} (w : Byte) (hm : Memory.wfFrom (k + 1) m = true) :
    m.read a = if k = a then unlistedByte else Memory.read ((k, w) :: m) a := by
  split_ifs with hka
  · exact Memory.read_below hm (by omega)
  · rw [Memory.read_cons, if_neg hka]

/-- The first address of a canonical memory is at most that of any canonical memory that reads the same. -/
theorem Memory.head_le_of_read_eq {lo lo' k k' : Nat} {w w' : Byte} {m m' : Memory}
    (hm : Memory.wfFrom lo ((k, w) :: m) = true) (hm' : Memory.wfFrom lo' ((k', w') :: m') = true)
    (h : ∀ a, Memory.read ((k, w) :: m) a = Memory.read ((k', w') :: m') a) : k ≤ k' :=
  Memory.le_of_read_ne_unlistedByte (Memory.wfFrom_head hm)
    (h k' ▸ Memory.read_head_ne_unlistedByte hm')

/-- Extensionality of canonical memories: both lists start at the first address that does not read as an
unlisted one, with the byte read there, and their tails again read the same. -/
theorem Memory.eq_of_read_eq {lo lo' : Nat} {m m' : Memory} (hm : Memory.wfFrom lo m = true)
    (hm' : Memory.wfFrom lo' m' = true) (h : ∀ a, m.read a = m'.read a) : m = m' := by
  induction m generalizing lo lo' m' with
  | nil =>
    cases m' with
    | nil => rfl
    | cons p' t' => exact absurd (h p'.1).symm (Memory.read_head_ne_unlistedByte hm')
  | cons p t ih =>
    cases m' with
    | nil => exact absurd (h p.1) (Memory.read_head_ne_unlistedByte hm)
    | cons p' t' =>
      obtain ⟨k, w⟩ := p
      obtain ⟨k', w'⟩ := p'
      obtain rfl : k = k' := le_antisymm (Memory.head_le_of_read_eq hm hm' h)
        (Memory.head_le_of_read_eq hm' hm fun a => (h a).symm)
      obtain rfl : w = w' := by simpa only [Memory.read_cons_self] using h k
      obtain ⟨-, -, -, ht⟩ := (Memory.wfFrom_cons ..).1 hm
      obtain ⟨-, -, -, ht'⟩ := (Memory.wfFrom_cons ..).1 hm'
      have htail : ∀ a, Memory.read t a = Memory.read t' a := fun a => by
        rw [Memory.read_tail w ht, Memory.read_tail w ht', h a]
      rw [ih ht ht' htail]

/-! ### States with a given `pc`, `sp` and slots -/

/-- Reset's state with the given program counter, stack pointer and call-stack slots. -/
def stateWith (pc : PcValue) (sp : Fin 17) (slot : SlotIx → PcValue) : State :=
  { State.reset with pc := pc, sp := sp, stk := Vector.ofFn slot }

@[simp] theorem stateWith_pc (pc : PcValue) (sp : Fin 17) (slot : SlotIx → PcValue) :
    (stateWith pc sp slot).pc = pc := rfl

@[simp] theorem stateWith_sp (pc : PcValue) (sp : Fin 17) (slot : SlotIx → PcValue) :
    (stateWith pc sp slot).sp = sp := rfl

@[simp] theorem readSlot_stateWith (pc : PcValue) (sp : Fin 17) (slot : SlotIx → PcValue) (k : SlotIx) :
    readSlot k (stateWith pc sp slot) = slot k :=
  Vector.getElem_ofFn k.isLt

theorem pcValueWord_toNat_le (v : PcValue) : (pcValueWord v).toNat ≤ 0x1000 := by
  rw [pcValueWord_toNat]
  exact v.is_le

theorem spBits_toNat_le (s : State) : (spBits s).toNat ≤ 16 := by
  rw [spBits_toNat]
  exact s.sp.is_le

/-! ### The statements -/

/-- Settles O3: both memories are canonical from address 0 up, so extensionality applies. -/
theorem canonicalMemoriesAreEqual : Obligations.CanonicalMemoriesAreEqual :=
  fun _ _ hm hm' h => Memory.eq_of_read_eq hm hm' h

/-- Settles O53: the types of `pc`, the slots and `sp` bound the registers' bits, and `stateWith` has any values within
these bounds. -/
theorem valuesThatAreNoStateDoNotExist : Obligations.ValuesThatAreNoStateDoNotExist := by
  refine ⟨fun s => ⟨pcValueWord_toNat_le s.pc, fun k => pcValueWord_toNat_le (readSlot k s), spBits_toNat_le s⟩,
    fun pc sp slot hpc hsp hslot => ?_⟩
  let s := stateWith ⟨pc, Nat.lt_succ_of_le hpc⟩ ⟨sp, Nat.lt_succ_of_le hsp⟩
    fun k => ⟨slot k, Nat.lt_succ_of_le (hslot k)⟩
  refine ⟨s, ?_, ?_, fun k => ?_⟩
  · rw [pcWord_toNat, stateWith_pc]
  · rw [spBits_toNat, stateWith_sp]
  · rw [slotWord_toNat, readSlot_stateWith]

end Sys2Proof.Machine
end

section
/-! Proofs of the statements on memory and on what no instruction changes (spec/20_memory.md R32, R33, R36, R41, R44):
the memory primitives, the frame of every instruction, and memory along a run. -/

namespace Sys2Proof.Machine

/-! ### The memory primitives -/

/-- A 2-byte read has no answer where its second byte lies outside memory (R32, R43). -/
theorem memRead2_ne_ok {s : State} {a : Nat} (h : Config.maxFetch < a) (w : Word) :
    memRead2 s a ≠ .ok w := by
  have hsecond : memRead1 s (a + 1) = .error (.noSuchAddress (a + 1)) :=
    memRead1_error (by simp only [Config.maxFetch, Config.memSize] at *; omega)
  cases hfirst : memRead1 s a <;> simp [memRead2, hfirst, hsecond]

theorem memRead1_congr {s t : State} (h : t.mem = s.mem) (a : Nat) : memRead1 t a = memRead1 s a := by
  rw [memRead1, memRead1, h]

theorem memRead2_congr {s t : State} (h : t.mem = s.mem) (a : Nat) : memRead2 t a = memRead2 s a := by
  rw [memRead2, memRead2, memRead1_congr h, memRead1_congr h]

/-! ### What an instruction can do -/

/-- Every next state of an instruction: a fatal condition taken, or the instruction's own effect; the form the frame
needs, without the values ADD writes and the conditions that are fatal, which are in `exec_cases`. -/
theorem exec_next_cases {i : Instr} {s t : State} (h : exec i s = .next t) :
    (∃ c v, t = takeFatal c v s) ∨
    (i = .halt ∧ t = setStatus .halted s) ∨
    (∃ k, i = .ret ∧ t = setPc (readSlot k s) (popSlot k s)) ∨
    (∃ nnn, ∃ k : SlotIx, i = .call nnn ∧ s.sp.val = k.val ∧
      t = setPc (targetOperand nnn) (pushSlot k s.pc s)) ∨
    (∃ x y a b, i = .add x y ∧ t = writeFlag a (writeReg x b s)) := by
  obtain ⟨hi, e⟩ | ⟨-, -, e⟩ | ⟨k, hi, -, e⟩ | ⟨-, -, -, e⟩ | ⟨nnn, k, hi, hk, e⟩ | ⟨x, y, hi, e⟩ :=
    exec_cases i s <;> cases e.symm.trans h
  · exact .inr (.inl ⟨hi, rfl⟩)
  · exact .inl ⟨_, _, rfl⟩
  · exact .inr (.inr (.inl ⟨k, hi, rfl⟩))
  · exact .inl ⟨_, _, rfl⟩
  · exact .inr (.inr (.inr (.inl ⟨nnn, k, hi, hk, rfl⟩)))
  · exact .inr (.inr (.inr (.inr ⟨x, y, _, _, hi, rfl⟩)))

theorem exec_total (i : Instr) (s : State) : ∃ t, exec i s = .next t := by
  obtain ⟨-, e⟩ | ⟨-, -, e⟩ | ⟨_, -, -, e⟩ | ⟨_, -, -, e⟩ | ⟨_, _, -, -, e⟩ | ⟨_, _, -, e⟩ :=
    exec_cases i s <;> exact ⟨_, e⟩

/-! ### The frame of an instruction, part by part -/

section Frame

variable {i : Instr} {s t : State}

/-- No instruction writes memory (R33, R36). -/
theorem exec_mem (h : exec i s = .next t) : t.mem = s.mem := by
  obtain ⟨c, v, rfl⟩ | ⟨-, rfl⟩ | ⟨k, -, rfl⟩ | ⟨nnn, k, -, -, rfl⟩ | ⟨x, y, a, b, -, rfl⟩ :=
    exec_next_cases h <;> rfl

/-- The registers an instruction may write are ADD's destination and the flag register. -/
theorem exec_readReg (h : exec i s = .next t) {r : RegIx}
    (hr : ∀ x y, i = .add x y → r ≠ x ∧ r ≠ 15) : readReg r t = readReg r s := by
  obtain ⟨c, v, rfl⟩ | ⟨-, rfl⟩ | ⟨k, -, rfl⟩ | ⟨nnn, k, -, -, rfl⟩ | ⟨x, y, a, b, hi, rfl⟩ :=
    exec_next_cases h
  case inr.inr.inr.inr =>
    obtain ⟨hx, hflag⟩ := hr x y hi
    rw [writeFlag, readReg_writeReg, if_neg hflag, readReg_writeReg, if_neg hx]
  all_goals rfl

/-- The slot an instruction may write is the free slot of a CALL. -/
theorem exec_readSlot (h : exec i s = .next t) {j : SlotIx}
    (hj : ∀ nnn, i = .call nnn → j.val ≠ s.sp.val) : readSlot j t = readSlot j s := by
  obtain ⟨c, v, rfl⟩ | ⟨-, rfl⟩ | ⟨k, -, rfl⟩ | ⟨nnn, k, hi, hk, rfl⟩ | ⟨x, y, a, b, -, rfl⟩ :=
    exec_next_cases h
  case inr.inr.inr.inl =>
    have hjk : j ≠ k := fun e => hj nnn hi (e ▸ hk.symm)
    rw [readSlot_congr (setPc_stk ..), readSlot_pushSlot, if_neg hjk]
  all_goals rfl

/-- HALT and ADD leave the program counter and the stack pointer. -/
theorem exec_pc_sp (h : exec i s = .next t) (hcall : ∀ nnn, i ≠ .call nnn) (hret : i ≠ .ret) :
    t.pc = s.pc ∧ t.sp = s.sp := by
  obtain ⟨c, v, rfl⟩ | ⟨-, rfl⟩ | ⟨k, hi, -⟩ | ⟨nnn, k, hi, -, -⟩ | ⟨x, y, a, b, -, rfl⟩ :=
    exec_next_cases h
  case inr.inr.inl => exact absurd hi hret
  case inr.inr.inr.inl => exact absurd hi (hcall nnn)
  all_goals exact ⟨rfl, rfl⟩

/-- Apart from HALT an instruction writes the status only by a fatal condition. -/
theorem exec_status (h : exec i s = .next t) (hhalt : i ≠ .halt) :
    t.status = s.status ∨ t.status = .faulted := by
  obtain ⟨c, v, rfl⟩ | ⟨hi, -⟩ | ⟨k, -, rfl⟩ | ⟨nnn, k, -, -, rfl⟩ | ⟨x, y, a, b, -, rfl⟩ :=
    exec_next_cases h
  case inl => exact .inr rfl
  case inr.inl => exact absurd hi hhalt
  all_goals exact .inl rfl

/-- The cause and the diagnostic value change only with a fatal condition. -/
theorem exec_cause_info (h : exec i s = .next t) (hok : t.status ≠ .faulted) :
    t.cause = s.cause ∧ t.info = s.info := by
  obtain ⟨c, v, rfl⟩ | ⟨-, rfl⟩ | ⟨k, -, rfl⟩ | ⟨nnn, k, -, -, rfl⟩ | ⟨x, y, a, b, -, rfl⟩ :=
    exec_next_cases h
  case inl => exact absurd rfl hok
  all_goals exact ⟨rfl, rfl⟩

end Frame

/-! ### RETURN over another memory -/

theorem execRet_eq_underflow {s : State} (h : s.sp = 0) : execRet s = .next (raiseStackUnderflow s) := by
  rw [execRet, topSlot_eq_none.2 h]

theorem execRet_eq_pop {s : State} {k : SlotIx} (h : s.sp.val = k.val + 1) :
    execRet s = .next (setPc (readSlot k s) (popSlot k s)) := by
  rw [execRet, topSlot_eq_some.2 h]

/-- RETURN neither reads nor writes memory: over another memory it has the same effect (R44). -/
theorem execRet_withMem (s : State) (m : Memory) :
    ∃ t, execRet s = .next t ∧ execRet { s with mem := m } = .next { t with mem := m } := by
  obtain ⟨h, e⟩ | ⟨k, h, e⟩ := execRet_cases s
  · exact ⟨_, e, execRet_eq_underflow h⟩
  · exact ⟨_, e, execRet_eq_pop h⟩

/-! ### Memory along a run -/

theorem step_total (s : State) : ∃ t, step s = .next t := by
  obtain ⟨-, e⟩ | ⟨-, -, e⟩ | ⟨i, -, e⟩ | ⟨-, -, -, e⟩ := step_cases s
  case inr.inr.inl => rw [e]; exact exec_total i _
  all_goals exact ⟨_, e⟩

/-- No step writes memory: the fetch only reads it, and neither an instruction nor a fatal condition writes it (R36). -/
theorem step_mem {s t : State} (h : step s = .next t) : t.mem = s.mem := by
  obtain ⟨-, e⟩ | ⟨-, -, e⟩ | ⟨i, -, e⟩ | ⟨-, -, -, e⟩ := step_cases s
  case inr.inr.inl => exact (exec_mem (e.symm.trans h)).trans (advancePc_mem s)
  all_goals cases e.symm.trans h; rfl

/-- What every step keeps, every run keeps. -/
theorem runSteps_preserves {P : State → Prop} (hstep : ∀ {s t}, step s = .next t → P s → P t) {n : Nat}
    {s t : State} (h : runSteps n s = .next t) (hs : P s) : P t := by
  induction n generalizing s with
  | zero => cases h; exact hs
  | succ n ih =>
    obtain ⟨u, hu⟩ := step_total s
    rw [runSteps_succ hu] at h
    exact ih h (hstep hu hs)

theorem runSteps_mem {n : Nat} {s t : State} (h : runSteps n s = .next t) : t.mem = s.mem :=
  runSteps_preserves (P := fun u => u.mem = s.mem) (fun hu hs => (step_mem hu).trans hs) h rfl

/-! ### The statements -/

/-- Settles O1: at 0 to 0xFFE both bytes are in memory and the word joins them, above the second byte is not. -/
theorem memReadIsBigEndian : Obligations.MemReadIsBigEndian := by
  refine fun s a => ⟨fun ha => ?_, memRead2_ne_ok⟩
  have hfirst : a < Config.memSize := Nat.lt_of_le_of_lt ha (by decide)
  have hsecond : a + 1 < Config.memSize := Nat.lt_of_le_of_lt (Nat.succ_le_succ ha) (by decide)
  exact ⟨s.mem.wordAt a, s.mem.read a, s.mem.read (a + 1), memRead2_ok ha, memRead1_ok hfirst,
    memRead1_ok hsecond, rfl, rfl, joinBytes_toNat ..⟩

/-- Settles O2: the primitive is one store within the bounds and no instruction writes memory. -/
theorem memWriteSetsOneByteOnly : Obligations.MemWriteSetsOneByteOnly := by
  refine ⟨fun s a v => ⟨fun ha => ⟨{ s with mem := s.mem.store a v }, ?_, ?_, fun b hb => ?_, rfl⟩,
    fun ha t h => ?_⟩, fun _ _ _ => exec_mem⟩
  · exact memWrite1_eq_ok.2 ⟨Nat.lt_succ_of_le ha, rfl⟩
  · rw [Memory.read_store, if_pos rfl]
  · rw [Memory.read_store, if_neg hb]
  · exact absurd (memWrite1_eq_ok.1 h).1 (Nat.not_lt.2 ha)

/-- Settles O4: the write changes `mem` alone, the reads depend on `mem` alone, CALL has memory in its frame, and
RETURN's test and effect do not mention it. -/
theorem memoryRegistersAndStackAreSeparate : Obligations.MemoryRegistersAndStackAreSeparate := by
  refine ⟨fun a v s t h => ?_, fun s x stk sp a => ⟨memRead1_congr rfl a, memRead2_congr rfl a⟩,
    fun nnn s => ?_, execRet_withMem⟩
  · obtain ⟨-, rfl⟩ := memWrite1_eq_ok.1 h
    exact ⟨rfl, rfl, rfl⟩
  · obtain ⟨t, h⟩ := exec_total (.call nnn) s
    exact ⟨t, h, exec_mem h⟩

/-- Settles O31: the parts of the frame, each by the cases of what an instruction can do. -/
theorem instructionFrames : Obligations.InstructionFrames := fun _ _ _ h =>
  ⟨fun a => by rw [exec_mem h], fun _ => exec_readReg h, fun _ => exec_readSlot h, exec_pc_sp h,
    exec_status h, exec_cause_info h⟩

/-- Settles O47: by induction on the steps, none of which writes memory. -/
theorem memoryIsConstantDuringARun : Obligations.MemoryIsConstantDuringARun :=
  fun _ _ _ => runSteps_mem

end Sys2Proof.Machine
end

section
/-! Proofs of the statements on the encoding (spec/30_encoding.md R45, R46, R49, R56, R57): the parts of a word as
numbers, the opcode of an instruction, decoder and encoder as inverses, the opcode table, and the classes in a step. -/

namespace Sys2Proof

/-! ### The parts of a word as numbers -/

theorem hiByte_toNat (op : Word) : (hiByte op).toNat = op.toNat / 256 := by
  simp only [hiByte, BitVec.extractLsb'_toNat, Nat.shiftRight_eq_div_pow]
  have := op.isLt
  omega

theorem loByte_toNat (op : Word) : (loByte op).toNat = op.toNat % 256 := by
  simp [loByte, BitVec.extractLsb'_toNat]

theorem append_toNat {m n : Nat} (hi : BitVec m) (lo : BitVec n) :
    (hi ++ lo).toNat = hi.toNat * 2 ^ n + lo.toNat := by
  rw [BitVec.toNat_append, ← Nat.shiftLeft_add_eq_or_of_lt lo.isLt, Nat.shiftLeft_eq]

@[simp] theorem regOfNibble_val (n : Nibble) : (regOfNibble n).val = n.toNat := rfl

/-! ### The opcode of an instruction -/

theorem encodeWord_call_toNat (nnn : Addr) : (encodeWord (.call nnn)).toNat = 0x2000 + nnn.toNat := by
  simp only [encodeWord, append_toNat, BitVec.toNat_ofNat]
  omega

theorem encodeWord_add_toNat (x y : RegIx) :
    (encodeWord (.add x y)).toNat = 0x8004 + x.val * 256 + y.val * 16 := by
  simp only [encodeWord, append_toNat, nibbleOfReg_toNat, BitVec.toNat_ofNat]
  omega

@[simp] theorem opNnn_encodeWord_call (nnn : Addr) : opNnn (encodeWord (.call nnn)) = nnn := by
  apply BitVec.eq_of_toNat_eq
  rw [opNnn_toNat, encodeWord_call_toNat]
  omega

@[simp] theorem opX_encodeWord_add (x y : RegIx) : opX (encodeWord (.add x y)) = nibbleOfReg x := by
  apply BitVec.eq_of_toNat_eq
  rw [opX_toNat, encodeWord_add_toNat, nibbleOfReg_toNat]
  omega

@[simp] theorem opY_encodeWord_add (x y : RegIx) : opY (encodeWord (.add x y)) = nibbleOfReg y := by
  apply BitVec.eq_of_toNat_eq
  rw [opY_toNat, encodeWord_add_toNat, nibbleOfReg_toNat]
  omega

/-! ### The control signals of an instruction's opcode -/

@[simp] theorem isHalt_encodeWord (i : Instr) : isHalt (encodeWord i) = true ↔ i = .halt := by
  cases i with
  | halt | ret => decide
  | call nnn => exact iff_of_false (by rw [isHalt_iff, encodeWord_call_toNat]; omega) nofun
  | add x y => exact iff_of_false (by rw [isHalt_iff, encodeWord_add_toNat]; omega) nofun

@[simp] theorem isReturn_encodeWord (i : Instr) : isReturn (encodeWord i) = true ↔ i = .ret := by
  cases i with
  | halt | ret => decide
  | call nnn => exact iff_of_false (by rw [isReturn_iff, encodeWord_call_toNat]; omega) nofun
  | add x y => exact iff_of_false (by rw [isReturn_iff, encodeWord_add_toNat]; omega) nofun

@[simp] theorem isCall_encodeWord (i : Instr) :
    isCall (encodeWord i) = true ↔ ∃ nnn, i = .call nnn := by
  cases i with
  | halt | ret => exact iff_of_false (by decide) nofun
  | call nnn => exact iff_of_true (by rw [isCall_iff, encodeWord_call_toNat]; omega) ⟨nnn, rfl⟩
  | add x y => exact iff_of_false (by rw [isCall_iff, encodeWord_add_toNat]; omega) nofun

@[simp] theorem isAdd_encodeWord (i : Instr) : isAdd (encodeWord i) = true ↔ ∃ x y, i = .add x y := by
  cases i with
  | halt | ret => exact iff_of_false (by decide) nofun
  | call nnn => exact iff_of_false (by rw [isAdd_iff, encodeWord_call_toNat]; omega) nofun
  | add x y => exact iff_of_true (by rw [isAdd_iff, encodeWord_add_toNat]; omega) ⟨x, y, rfl⟩

theorem isUnimplemented_iff (op : Word) : isUnimplemented op = true ↔
    ¬ isHalt op = true ∧ ¬ isReturn op = true ∧ ¬ isCall op = true ∧ ¬ isAdd op = true := by
  simp [isUnimplemented, and_assoc]

theorem isUnimplemented_encodeWord (i : Instr) : isUnimplemented (encodeWord i) = false := by
  cases i <;> simp [isUnimplemented]

/-! ### Decoder and encoder are inverses -/

theorem decodeWord_encodeWord (i : Instr) : decodeWord (encodeWord i) = .ok i := by
  cases i with
  | halt => rfl
  | ret => rfl
  | call nnn => simp [decodeWord]
  | add x y => simp [decodeWord]

/-- An opcode of class 2 is the CALL of its address operand. -/
theorem encodeWord_call_opNnn {op : Word} (h : isCall op = true) : encodeWord (.call (opNnn op)) = op := by
  have hclass := (isCall_iff op).1 h
  apply BitVec.eq_of_toNat_eq
  rw [encodeWord_call_toNat, opNnn_toNat]
  omega

/-- An opcode of class 8 with sub-opcode 4 is the ADD of its two register operands. -/
theorem encodeWord_add_opX_opY {op : Word} (h : isAdd op = true) :
    encodeWord (.add (regOfNibble (opX op)) (regOfNibble (opY op))) = op := by
  obtain ⟨hclass, hsub⟩ := (isAdd_iff op).1 h
  apply BitVec.eq_of_toNat_eq
  rw [encodeWord_add_toNat, regOfNibble_val, regOfNibble_val, opX_toNat, opY_toNat]
  omega

theorem encodeWord_of_decodeWord {op : Word} {i : Instr} (h : decodeWord op = .ok i) :
    encodeWord i = op := by
  obtain ⟨rfl, e⟩ | ⟨rfl, e⟩ | ⟨hc, e⟩ | ⟨hc, hd, e⟩ | ⟨-, e⟩ := decodeWord_cases op <;>
    cases e.symm.trans h
  · rfl
  · rfl
  · exact encodeWord_call_opNnn (by rw [isCall, hc]; rfl)
  · exact encodeWord_add_opX_opY (by rw [isAdd, hc, hd]; rfl)

/-- An opcode decodes to an instruction exactly when it is that instruction's opcode. -/
theorem decodeWord_eq_ok_iff {op : Word} {i : Instr} : decodeWord op = .ok i ↔ encodeWord i = op :=
  ⟨encodeWord_of_decodeWord, fun h => h ▸ decodeWord_encodeWord i⟩

theorem decode_encode_append (i : Instr) (rest : List Byte) : decode (encode i ++ rest) = .ok (i, rest) :=
  (decode_cons_cons ..).2 ⟨by rw [joinBytes_hi_lo, decodeWord_encodeWord], rfl⟩

/-! ### The classes of opcodes -/

theorem isHalt_iff_decodeWord (op : Word) : isHalt op = true ↔ decodeWord op = .ok .halt := by
  rw [decodeWord_eq_ok_iff, isHalt, beq_iff_eq, eq_comm, encodeWord]

theorem isReturn_iff_decodeWord (op : Word) : isReturn op = true ↔ decodeWord op = .ok .ret := by
  rw [decodeWord_eq_ok_iff, isReturn, beq_iff_eq, eq_comm, encodeWord]

theorem decodeWord_of_isCall {op : Word} (h : isCall op = true) : decodeWord op = .ok (.call (opNnn op)) :=
  decodeWord_eq_ok_iff.2 (encodeWord_call_opNnn h)

theorem isCall_of_decodeWord {op : Word} {nnn : Addr} (h : decodeWord op = .ok (.call nnn)) :
    isCall op = true := by
  rw [← encodeWord_of_decodeWord h, isCall_encodeWord]
  exact ⟨nnn, rfl⟩

theorem decodeWord_of_isAdd {op : Word} (h : isAdd op = true) :
    decodeWord op = .ok (.add (regOfNibble (opX op)) (regOfNibble (opY op))) :=
  decodeWord_eq_ok_iff.2 (encodeWord_add_opX_opY h)

theorem isAdd_of_decodeWord {op : Word} {x y : RegIx} (h : decodeWord op = .ok (.add x y)) :
    isAdd op = true := by
  rw [← encodeWord_of_decodeWord h, isAdd_encodeWord]
  exact ⟨x, y, rfl⟩

theorem isUnimplemented_iff_decodeWord (op : Word) :
    isUnimplemented op = true ↔ decodeWord op = .error (.unimplementedOpcode op) := by
  refine ⟨fun h => ?_, fun h => (decodeWord_error h).2⟩
  cases hd : decodeWord op with
  | ok i =>
    rw [← encodeWord_of_decodeWord hd, isUnimplemented_encodeWord] at h
    exact absurd h (by decide)
  | error e => rw [(decodeWord_error hd).1]

/-- The signals as a whole: an instruction's opcode raises its own, any other opcode the fallback (R56, R63). -/
theorem count_signals (op : Word) :
    [isHalt op, isReturn op, isCall op, isAdd op, isUnimplemented op].count true = 1 := by
  cases hd : decodeWord op with
  | ok i =>
    obtain rfl := encodeWord_of_decodeWord hd
    cases i <;> simp [List.count_cons, isUnimplemented_encodeWord]
  | error e =>
    have hu := (decodeWord_error hd).2
    obtain ⟨hhalt, hret, hcall, hadd⟩ := (isUnimplemented_iff op).1 hu
    simp [hu, hhalt, hret, hcall, hadd]

/-! ### The masks of the opcode table -/

theorem and_fullMask (op : Word) : op &&& 0xFFFF = op := BitVec.and_allOnes

theorem and_classMask (op : Word) : op &&& 0xF000 = opC op ++ 0#12 := by
  ext i hi
  simp only [opC, BitVec.getElem_and, BitVec.getElem_append, BitVec.getElem_extractLsb']
  interval_cases i <;> simp

theorem and_addMask (op : Word) : op &&& 0xF00F = opC op ++ 0#8 ++ opD op := by
  ext i hi
  simp only [opC, opD, BitVec.getElem_and, BitVec.getElem_append, BitVec.getElem_extractLsb']
  interval_cases i <;> simp

theorem and_classMask_eq_iff_isCall (op : Word) : op &&& 0xF000 = 0x2000 ↔ isCall op = true := by
  rw [and_classMask, isCall_iff, BitVec.toNat_eq, append_toNat, opC_toNat]
  simp only [BitVec.reduceToNat]
  omega

theorem and_addMask_eq_iff_isAdd (op : Word) : op &&& 0xF00F = 0x8004 ↔ isAdd op = true := by
  rw [and_addMask, isAdd_iff, BitVec.toNat_eq, append_toNat, append_toNat, opC_toNat, opD_toNat]
  simp only [BitVec.reduceToNat]
  omega

end Sys2Proof

namespace Sys2Proof.Machine

/-! ### The unimplemented-opcode condition in a step -/

/-- An instruction raises no fatal condition but the two of the call stack (R102, R103). -/
theorem exec_cause {i : Instr} {s t : State} (h : exec i s = .next t) :
    t.cause = s.cause ∨ t.cause = .stackOverflow ∨ t.cause = .stackUnderflow := by
  obtain ⟨-, e⟩ | ⟨-, -, e⟩ | ⟨_, -, -, e⟩ | ⟨_, -, -, e⟩ | ⟨_, _, -, -, e⟩ | ⟨_, _, -, e⟩ :=
    exec_cases i s <;> cases e.symm.trans h
  case inr.inl => exact .inr (.inr rfl)
  case inr.inr.inr.inl => exact .inr (.inl rfl)
  all_goals exact .inl rfl

/-- A step in bounds raises the unimplemented-opcode condition exactly on an opcode of that class (R51, R104). -/
theorem step_cause_eq_unimplementedOpcode_iff {s t : State} (hrun : s.status = .running)
    (hcause : s.cause ≠ .unimplementedOpcode) (hpc : s.pc.val ≤ Config.maxFetch) (h : step s = .next t) :
    t.cause = .unimplementedOpcode ↔ isUnimplemented (opcodeAtPc s) = true := by
  obtain ⟨hstop, -⟩ | ⟨-, hout, -⟩ | ⟨i, ⟨-, -, hi⟩, e⟩ | ⟨-, -, hu, e⟩ := step_cases s
  · exact absurd hrun hstop
  · exact absurd hpc (Nat.not_le.2 hout)
  · rw [← encodeWord_of_decodeWord hi, isUnimplemented_encodeWord]
    rw [h] at e
    obtain hc | hc | hc := exec_cause e.symm <;> simp [hc, hcause]
  · cases e.symm.trans h
    exact iff_of_true rfl hu

/-! ### The statements -/

/-- Settles O5: the two bytes join to the opcode, and its signals select the instruction with its own operands. -/
theorem decodeOfEncodeIsIdentity : Obligations.DecodeOfEncodeIsIdentity := decode_encode_append

/-- Settles O6: by the decoder's cases, in each of which the opcode is put together again from its fields. -/
theorem encodeOfDecodeIsIdentity : Obligations.EncodeOfDecodeIsIdentity :=
  fun _ _ => encodeWord_of_decodeWord

/-- Settles O7: each row's mask keeps exactly the bits its control signal tests. -/
theorem decoderFollowsTheOpcodeTable : Obligations.DecoderFollowsTheOpcodeTable := by
  refine ⟨rfl, fun op => ⟨?_, ?_, ?_, ?_⟩⟩
  · rw [and_fullMask, ← isHalt_iff_decodeWord]
    exact beq_iff_eq.symm
  · rw [and_fullMask, ← isReturn_iff_decodeWord]
    exact beq_iff_eq.symm
  · rw [and_classMask_eq_iff_isCall]
    exact ⟨fun h => ⟨opNnn op, opNnn_toNat op, decodeWord_of_isCall h⟩,
      fun ⟨_, _, h⟩ => isCall_of_decodeWord h⟩
  · rw [and_addMask_eq_iff_isAdd]
    exact ⟨fun h => ⟨_, _, opX_toNat op, opY_toNat op, decodeWord_of_isAdd h⟩,
      fun ⟨_, _, _, _, h⟩ => isAdd_of_decodeWord h⟩

/-- Settles O8: the signals are the decoder's classes, and a step raises the condition only by the fallback. -/
theorem everyOpcodeHasExactlyOneClass : Obligations.EveryOpcodeHasExactlyOneClass := by
  refine ⟨fun op => ⟨count_signals op, isHalt_iff_decodeWord op, isReturn_iff_decodeWord op,
    ⟨fun h => ⟨_, decodeWord_of_isCall h⟩, fun ⟨_, h⟩ => isCall_of_decodeWord h⟩,
    ⟨fun h => ⟨_, _, decodeWord_of_isAdd h⟩, fun ⟨_, _, h⟩ => isAdd_of_decodeWord h⟩,
    isUnimplemented_iff_decodeWord op⟩, fun s hrun hcause hpc => ?_⟩
  obtain ⟨t, h⟩ := step_total s
  have hne : s.cause ≠ .unimplementedOpcode := by rw [hcause]; decide
  exact ⟨t, h, step_cause_eq_unimplementedOpcode_iff hrun hne hpc h⟩

/-- Settles O9: each field is a quotient and remainder of the opcode, and positional notation joins them. -/
theorem fieldsAreTheirBits : Obligations.FieldsAreTheirBits := by
  intro op
  have hlt : op.toNat < 2 ^ 16 := op.isLt
  rw [opC_toNat, opX_toNat, opY_toNat, opD_toNat, opNnn_toNat, hiByte_toNat, loByte_toNat]
  omega

/-- Settles O11: the eight fixed lines of R57, evaluated. -/
theorem encodingExamplesOfTheSpec : Obligations.EncodingExamplesOfTheSpec := by
  unfold Obligations.EncodingExamplesOfTheSpec
  decide

end Sys2Proof.Machine
end

section
/-! Proofs of the statements on the step (spec/40_fetch_decode_dispatch.md R60, R61, R64, R68): what fetch and step answer
under each condition of the pseudocode, and the registers' part in a run. -/

namespace Sys2Proof.Machine

/-! ### The answer of fetch and of step, condition by condition -/

section Branches

variable {s : State}

/-- A fetch in bounds (R61). -/
theorem fetch_eq_opcode (hrun : s.status = .running) (hpc : s.pc.val ≤ Config.maxFetch) :
    fetch s = .opcode (opcodeAtPc s) (advancePc s) := by
  obtain ⟨hstop, -⟩ | ⟨-, hout, -⟩ | ⟨-, -, e⟩ := fetch_cases s
  · exact absurd hrun hstop
  · exact absurd hpc (Nat.not_le.2 hout)
  · exact e

theorem step_eq_self (hstop : s.status ≠ .running) : step s = .next s := by
  rw [step, fetch, if_neg hstop]

theorem step_eq_outOfBoundsFetch (hrun : s.status = .running) (hout : Config.maxFetch < s.pc.val) :
    step s = .next (raiseOutOfBoundsFetch s) := by
  rw [step, fetch, if_pos hrun, if_pos hout]

theorem step_eq_exec {i : Instr} (h : AboutToRun i s) : step s = exec i (advancePc s) := by
  obtain ⟨hrun, hpc, hi⟩ := h
  simp only [step, fetch_eq_opcode hrun hpc, hi]

theorem step_eq_unimplementedOpcode (hrun : s.status = .running) (hpc : s.pc.val ≤ Config.maxFetch)
    (hu : isUnimplemented (opcodeAtPc s) = true) :
    step s = .next (raiseUnimplementedOpcode (opcodeAtPc s) (advancePc s)) := by
  simp only [step, fetch_eq_opcode hrun hpc, (isUnimplemented_iff_decodeWord _).1 hu]

end Branches

/-! ### The control signals as the pseudocode tests them -/

theorem isCall_iff_opC (op : Word) : isCall op = true ↔ opC op = 0x2#4 := beq_iff_eq

theorem isAdd_iff_opC_opD (op : Word) : isAdd op = true ↔ opC op = 0x8#4 ∧ opD op = 0x4#4 := by
  rw [isAdd, Bool.and_eq_true, beq_iff_eq, beq_iff_eq]

/-! ### Control over other registers -/

theorem execCall_eq_overflow (nnn : Addr) {s : State} (h : s.sp = 16) :
    execCall nnn s = .next (raiseStackOverflow s) := by
  rw [execCall, freeSlot_eq_none.2 h]

theorem execCall_eq_push (nnn : Addr) {s : State} {k : SlotIx} (h : s.sp.val = k.val) :
    execCall nnn s = .next (setPc (targetOperand nnn) (pushSlot k s.pc s)) := by
  rw [execCall, freeSlot_eq_some.2 h]

/-- Over other registers an instruction has the same effect on everything but the registers (R11). -/
theorem exec_withRegs (i : Instr) (s : State) (x : Vector Byte 16) :
    ∃ (t : State) (x' : Vector Byte 16),
      exec i s = .next t ∧ exec i { s with x := x } = .next { t with x := x' } := by
  cases i with
  | halt => exact ⟨_, x, rfl, rfl⟩
  | ret =>
    obtain ⟨h, e⟩ | ⟨k, h, e⟩ := execRet_cases s
    · exact ⟨_, x, e, execRet_eq_underflow h⟩
    · exact ⟨_, x, e, execRet_eq_pop h⟩
  | call nnn =>
    obtain ⟨h, e⟩ | ⟨k, h, e⟩ := execCall_cases nnn s
    · exact ⟨_, x, e, execCall_eq_overflow nnn h⟩
    · exact ⟨_, x, e, execCall_eq_push nnn h⟩
  | add rx ry => exact ⟨_, _, rfl, rfl⟩

/-- Over other registers a step takes the same branch, since the status, `pc` and the opcode are the same (R64). -/
theorem step_withRegs (s : State) (x : Vector Byte 16) :
    ∃ (t : State) (x' : Vector Byte 16),
      step s = .next t ∧ step { s with x := x } = .next { t with x := x' } := by
  obtain ⟨hstop, e⟩ | ⟨hrun, hout, e⟩ | ⟨i, hi, e⟩ | ⟨hrun, hpc, hu, e⟩ := step_cases s
  · exact ⟨_, x, e, step_eq_self hstop⟩
  · exact ⟨_, x, e, step_eq_outOfBoundsFetch hrun hout⟩
  · obtain ⟨t, x', h, h'⟩ := exec_withRegs i (advancePc s) x
    exact ⟨t, x', e.trans h, (step_eq_exec (s := { s with x := x }) hi).trans h'⟩
  · exact ⟨_, x, e, step_eq_unimplementedOpcode hrun hpc hu⟩

theorem runSteps_withRegs (n : Nat) (s : State) (x : Vector Byte 16) :
    ∃ (t : State) (x' : Vector Byte 16),
      runSteps n s = .next t ∧ runSteps n { s with x := x } = .next { t with x := x' } := by
  induction n generalizing s x with
  | zero => exact ⟨s, x, rfl, rfl⟩
  | succ n ih =>
    obtain ⟨u, y, h, h'⟩ := step_withRegs s x
    rw [runSteps_succ h, runSteps_succ h']
    exact ih u y

/-! ### The statements -/

/-- Settles O13: the bytes join to the opcode, and in bounds the advance does not wrap. -/
theorem fetchReadsTwoBytesAndAdvances : Obligations.FetchReadsTwoBytesAndAdvances := fun s hrun hpc =>
  ⟨opcodeAtPc s, advancePc s, fetch_eq_opcode hrun hpc, joinBytes_toNat .., advancePc_val hpc,
    (advancePc s).pc.is_le, rfl⟩

/-- Settles O14: each test of the pseudocode is the control signal of the decoder's class. -/
theorem stepFollowsThePseudocode : Obligations.StepFollowsThePseudocode := by
  refine ⟨fun s hrun => ?_, fun s t hstop h => ?_⟩
  · split_ifs with hout
    · exact step_eq_outOfBoundsFetch hrun hout
    have hpc : s.pc.val ≤ Config.maxFetch := Nat.not_lt.1 hout
    extract_lets op t
    split_ifs with hhalt hret hcall hadd
    · exact step_eq_exec ⟨hrun, hpc, (isHalt_iff_decodeWord op).1 (beq_iff_eq.2 hhalt)⟩
    · exact step_eq_exec ⟨hrun, hpc, (isReturn_iff_decodeWord op).1 (beq_iff_eq.2 hret)⟩
    · exact step_eq_exec ⟨hrun, hpc, decodeWord_of_isCall ((isCall_iff_opC op).2 hcall)⟩
    · exact step_eq_exec ⟨hrun, hpc, decodeWord_of_isAdd ((isAdd_iff_opC_opD op).2 hadd)⟩
    · have hu : isUnimplemented op = true := (isUnimplemented_iff op).2
        ⟨mt beq_iff_eq.1 hhalt, mt beq_iff_eq.1 hret, mt (isCall_iff_opC op).1 hcall,
          mt (isAdd_iff_opC_opD op).1 hadd⟩
      exact step_eq_unimplementedOpcode hrun hpc hu
  · cases (step_eq_self hstop).symm.trans h
    rfl

/-- Settles O17: by the cases of a step, an instruction having a next state in every state. -/
theorem everyStateHasASuccessor : Obligations.EveryStateHasASuccessor := step_total

/-- Settles O48: by induction on the steps, each of which takes the same branch over other registers. -/
theorem registersNeverSteerControl : Obligations.RegistersNeverSteerControl := runSteps_withRegs

/-- Settles O15: the two bytes join to the opcode at `pc`, whatever bytes follow them. -/
theorem stepRunsTheDecodedInstruction : Obligations.StepRunsTheDecodedInstruction := by
  intro i s rest hrun hpc hdecode
  obtain ⟨hi, -⟩ := (decode_cons_cons ..).1 hdecode
  exact step_eq_exec ⟨hrun, hpc, hi⟩

/-- Settles O16: fetch ends the step of a core that is not Running in the state it is in. -/
theorem noStepUnlessRunning : Obligations.NoStepUnlessRunning := fun _ => step_eq_self

end Sys2Proof.Machine
end

section
/-! Proofs of the statements on CALL and RETURN (spec/42_call_return.md R78, R79, R81, R83): the push and the pop as
changes of the slots, the diagnostic of a full and of an empty stack, and the stack under the other instructions. -/

namespace Sys2Proof.Machine

/-! ### The diagnostic value of the stack conditions -/

/-- The stack pointer fits the diagnostic register whole (R102, R103). -/
@[simp] theorem spWord_toNat (s : State) : (spWord s).toNat = s.sp.val := by
  rw [spWord_eq]
  exact Nat.mod_eq_of_lt (s.sp.isLt.trans (by decide))

theorem spWord_of_empty {s : State} (h : s.sp = 0) : spWord s = 0 := by
  rw [spWord_eq, h]
  rfl

/-! ### The call stack under the other instructions -/

/-- No instruction but CALL writes a slot: a RETURN leaves the slot it pops as it is (R81). -/
theorem exec_stk {i : Instr} {s t : State} (h : exec i s = .next t) (hcall : ∀ nnn, i ≠ .call nnn) :
    t.stk = s.stk :=
  Vector.ext fun k hk => exec_readSlot (j := ⟨k, hk⟩) h fun nnn hi => absurd hi (hcall nnn)

/-! ### The statements -/

/-- Settles O25: below 16 the free slot is `stk[sp]`, at 16 there is none, and the opcode of CALL is a sum. -/
theorem callPushesAndJumps : Obligations.CallPushesAndJumps := by
  refine fun nnn s => ⟨fun hfree => ?_, fun hfull => ?_, fun op => ?_⟩
  · obtain ⟨k, hk⟩ : ∃ k : SlotIx, s.sp.val = k.val := ⟨⟨s.sp.val, hfree⟩, rfl⟩
    refine ⟨_, execCall_eq_push nnn hk, fun j => ?_, ?_, rfl, rfl, rfl, rfl, rfl, rfl⟩
    · rw [readSlot_congr (setPc_stk ..), readSlot_pushSlot, hk]
      simp only [Fin.ext_iff]
    · rw [hk]
      rfl
  · have hsp : s.sp = 16 := Fin.ext (Nat.le_antisymm s.sp.is_le hfull)
    exact ⟨_, execCall_eq_overflow nnn hsp, spWord_toNat s, rfl⟩
  · rw [decodeWord_eq_ok_iff, ← BitVec.toNat_inj, encodeWord_call_toNat, eq_comm]

/-- Settles O26: above 0 the top slot is `stk[sp - 1]`, at 0 there is none, and RETURN has one opcode. -/
theorem returnPopsIntoPc : Obligations.ReturnPopsIntoPc := by
  refine fun s => ⟨fun hlive => ?_, fun hempty => ?_, fun op => ?_⟩
  · obtain ⟨top, htop⟩ : ∃ k : SlotIx, s.sp.val = k.val + 1 :=
      ⟨⟨s.sp.val - 1, by omega⟩, (Nat.sub_add_cancel hlive).symm⟩
    refine ⟨_, execRet_eq_pop htop, ?_, fun k hk => ?_, fun _ => rfl, rfl, rfl, rfl, rfl, rfl⟩
    · rw [htop]
      rfl
    · have hkt : k = top := Fin.ext (by omega)
      rw [hkt]
      rfl
  · have hsp : s.sp = 0 := Fin.ext hempty
    rw [← spWord_of_empty hsp]
    exact execRet_eq_underflow hsp
  · rw [decodeWord_eq_ok_iff, eq_comm]
    rfl

/-- Settles O32: the step runs the instruction in the state fetch advanced, and that instruction keeps `pc`, `sp` and
the slots. -/
theorem onlyCallAndReturnTransferControl : Obligations.OnlyCallAndReturnTransferControl := by
  intro i s t hi hstep hcall hret
  have h : exec i (advancePc s) = .next t := (step_eq_exec hi).symm.trans hstep
  obtain ⟨hpc, hsp⟩ := exec_pc_sp h hcall hret
  have hstk := exec_stk h hcall
  obtain ⟨-, hbound, -⟩ := hi
  exact ⟨hpc ▸ advancePc_val hbound, hsp, hstk⟩

end Sys2Proof.Machine
end

section
/-! Proofs of the statements on ADD (spec/43_arithmetic.md R85 to R87): the adder and the carry as numbers, the registers
after an ADD, and the old flag as no input. -/

namespace Sys2Proof.Machine

/-! ### The adder and the carry -/

/-- The flag is bit 8 of the exact sum (R86). -/
theorem addFlag_toNat (a b : Byte) : (addFlag a b).toNat = (a.toNat + b.toNat) / 256 := by
  have ha : a.toNat < 256 := a.isLt
  have hb : b.toNat < 256 := b.isLt
  unfold addFlag addExact
  split_ifs with hcarry
  · show 1 = _
    omega
  · show 0 = _
    omega

theorem addResult_comm (a b : Byte) : addResult a b = addResult b a := by
  rw [addResult, addResult, addExact_comm]

theorem addFlag_comm (a b : Byte) : addFlag a b = addFlag b a := by
  rw [addFlag, addFlag, addExact_comm]

theorem addFlag_eq_one_iff (a b : Byte) : addFlag a b = 1 ↔ 256 ≤ a.toNat + b.toNat := by
  have ha : a.toNat < 256 := a.isLt
  have hb : b.toNat < 256 := b.isLt
  rw [BitVec.toNat_eq, addFlag_toNat]
  show _ = 1 ↔ _
  omega

theorem addFlag_eq_zero_iff (a b : Byte) : addFlag a b = 0 ↔ a.toNat + b.toNat ≤ 255 := by
  rw [BitVec.toNat_eq, addFlag_toNat]
  show _ = 0 ↔ _
  omega

/-! ### The registers after an ADD -/

section Add

variable {x y : RegIx} {s t : State}

/-- The flag register after an ADD, whatever registers its operands are: the flag is written last (R85). -/
theorem exec_add_readReg_flag (h : exec (.add x y) s = .next t) :
    readReg 15 t = addFlag (readReg x s) (readReg y s) := by
  cases (execAdd_eq x y s).symm.trans h
  rw [writeFlag, readReg_writeReg, if_pos rfl]

/-- The destination keeps the sum unless the flag overwrites it (R85). -/
theorem exec_add_readReg_dest (h : exec (.add x y) s = .next t) (hx : x ≠ 15) :
    readReg x t = addResult (readReg x s) (readReg y s) := by
  cases (execAdd_eq x y s).symm.trans h
  rw [writeFlag, readReg_writeReg, if_neg hx, readReg_writeReg, if_pos rfl]

/-- An ADD leaves every register but its destination and the flag register. -/
theorem exec_add_readReg_other (h : exec (.add x y) s = .next t) {r : RegIx} (hx : r ≠ x) (hflag : r ≠ 15) :
    readReg r t = readReg r s :=
  exec_readReg h fun _ _ hi => by
    cases hi
    exact ⟨hx, hflag⟩

/-- An ADD never traps (R86). -/
theorem exec_add_status (h : exec (.add x y) s = .next t) : t.status = s.status := by
  cases (execAdd_eq x y s).symm.trans h
  rfl

end Add

/-! ### Writes to registers, one after another -/

theorem writeReg_writeReg_same (i : RegIx) (v w : Byte) (s : State) :
    writeReg i w (writeReg i v s) = writeReg i w s := by
  simp only [writeReg, Vector.set_set]

theorem writeReg_comm {i j : RegIx} (hij : i ≠ j) (v w : Byte) (s : State) :
    writeReg j w (writeReg i v s) = writeReg i v (writeReg j w s) := by
  simp only [writeReg, Vector.set_comm _ _ (Fin.val_ne_of_ne hij)]

/-- Where register 15 is no operand, its old value is neither read nor kept (R87). -/
theorem exec_add_writeReg_flag {x y : RegIx} (hx : x ≠ 15) (hy : y ≠ 15) (s : State) (v : Byte) :
    exec (.add x y) (writeReg 15 v s) = exec (.add x y) s := by
  show execAdd x y (writeReg 15 v s) = execAdd x y s
  rw [execAdd_eq, execAdd_eq, readReg_writeReg, if_neg hx, readReg_writeReg, if_neg hy,
    writeReg_comm hx.symm, writeFlag, writeReg_writeReg_same, writeFlag]

/-! ### The opcodes of class 8 -/

/-- An opcode of class 8 that is no ADD is no instruction: HALT, RETURN and CALL are of other classes (R51). -/
theorem isUnimplemented_of_class_eight {op : Word} (hclass : op.toNat / 4096 = 8) (hsub : op.toNat % 16 ≠ 4) :
    isUnimplemented op = true := by
  rw [isUnimplemented_iff, isHalt_iff, isReturn_iff, isCall_iff, isAdd_iff]
  omega

/-! ### The statements -/

/-- Settles O28: flag and sum are the quotient and the remainder of one exact sum, which is symmetric in the operands. -/
theorem additionLosesNoInformation : Obligations.AdditionLosesNoInformation := by
  refine ⟨fun x y s => ?_, fun x y s t u hx hy ht hu => ⟨?_, ?_, fun hxy => ⟨?_, ?_⟩⟩,
    fun _ => isUnimplemented_of_class_eight⟩
  · obtain ⟨t, h⟩ := exec_total (.add x y) s
    have hflag : (readReg 15 t).toNat = ((readReg x s).toNat + (readReg y s).toNat) / 256 := by
      rw [exec_add_readReg_flag h, addFlag_toNat]
    refine ⟨t, h, exec_add_status h, hflag, fun hx => ?_⟩
    have hsum : (readReg x t).toNat = ((readReg x s).toNat + (readReg y s).toNat) % 256 := by
      rw [exec_add_readReg_dest h hx, addResult_toNat]
    refine ⟨hsum, ?_⟩
    rw [hflag, hsum, Nat.div_add_mod']
  · rw [exec_add_readReg_dest ht hx, exec_add_readReg_dest hu hy, addResult_comm]
  · rw [exec_add_readReg_flag ht, exec_add_readReg_flag hu, addFlag_comm]
  · exact exec_add_readReg_other ht hxy.symm hy
  · exact exec_add_readReg_other hu hxy hx

/-- Settles O29: the flag register ends as the adder's flag, and an ADD without register 15 as an operand does not read
it. -/
theorem flagIsTheUnsignedCarryOut : Obligations.FlagIsTheUnsignedCarryOut := by
  refine ⟨fun x y s t h => ?_, fun _ _ s v hx hy => exec_add_writeReg_flag hx hy s v⟩
  rw [exec_add_readReg_flag h]
  exact ⟨addFlag_eq_one_iff .., addFlag_eq_zero_iff ..⟩

end Sys2Proof.Machine
end

section
/-! Proofs of the statements on the host's operations (spec/50_interfaces.md R90 to R95): the `status` in which each is
a move, and the LoadBytes of a byte and of an instruction word. -/

namespace Sys2Proof.Machine

/-! ### LoadByte and SetReg, in Idle and outside it -/

theorem applyHostOp_loadByte_eq_next (addr : Addr) (v : Byte) {s : State} (hidle : s.status = .idle) :
    applyHostOp (.loadByte addr v) s = .next { s with mem := s.mem.store addr.toNat v } := by
  obtain ⟨-, e⟩ | ⟨hnot, -⟩ := hostLoadByte_cases addr v s
  · exact e
  · exact absurd hidle hnot

/-- LoadByte is permitted in Idle only (R92). -/
theorem applyHostOp_loadByte_eq_refused (addr : Addr) (v : Byte) {s : State} (hnot : s.status ≠ .idle) :
    applyHostOp (.loadByte addr v) s = .refused .loadByteNotIdle := if_neg hnot

theorem exists_loadByte_next_iff (addr : Addr) (v : Byte) (s : State) :
    (∃ t, applyHostOp (.loadByte addr v) s = .next t) ↔ s.status = .idle := by
  refine ⟨fun ⟨t, h⟩ => ?_, fun hidle => ⟨_, applyHostOp_loadByte_eq_next addr v hidle⟩⟩
  by_contra hnot
  cases (applyHostOp_loadByte_eq_refused addr v hnot).symm.trans h

theorem applyHostOp_setReg_eq_next (i : RegIx) (v : Byte) {s : State} (hidle : s.status = .idle) :
    applyHostOp (.setReg i v) s = .next (writeReg i v s) := if_pos hidle

/-- SetReg is permitted in Idle only (R93). -/
theorem applyHostOp_setReg_eq_refused (i : RegIx) (v : Byte) {s : State} (hnot : s.status ≠ .idle) :
    applyHostOp (.setReg i v) s = .refused .setRegNotIdle := if_neg hnot

theorem exists_setReg_next_iff (i : RegIx) (v : Byte) (s : State) :
    (∃ t, applyHostOp (.setReg i v) s = .next t) ↔ s.status = .idle := by
  refine ⟨fun ⟨t, h⟩ => ?_, fun hidle => ⟨_, applyHostOp_setReg_eq_next i v hidle⟩⟩
  by_contra hnot
  cases (applyHostOp_setReg_eq_refused i v hnot).symm.trans h

/-! ### Run and Inspect -/

theorem applyHostOp_run_of_idle {s : State} (hidle : s.status = .idle) :
    applyHostOp .run s = .next (setStatus .running s) := if_pos hidle

theorem applyHostOp_run_of_not_idle {s : State} (hnot : s.status ≠ .idle) :
    applyHostOp .run s = .next s := if_neg hnot

@[simp] theorem inspect_status (s : State) : (inspect s).status = s.status := rfl

theorem inspect_rest_of_running {s : State} (hrun : s.status = .running) : (inspect s).rest = none := if_pos hrun

theorem inspect_rest_of_not_running {s : State} (hstop : s.status ≠ .running) : (inspect s).rest = some s :=
  if_neg hstop

/-! ### Two LoadBytes, and the word they place -/

/-- LoadByte leaves the core Idle, so a second one is a move too. -/
theorem applyHostOps_loadByte_loadByte (a b : Addr) (v w : Byte) {s : State} (hidle : s.status = .idle) :
    applyHostOps [.loadByte a v, .loadByte b w] s =
      .next { s with mem := (s.mem.store a.toNat v).store b.toNat w } := by
  have hsecond := applyHostOp_loadByte_eq_next b w (s := { s with mem := s.mem.store a.toNat v }) hidle
  simp only [applyHostOps, applyHostOp_loadByte_eq_next a v hidle, hsecond]

/-- A fetch reads the placed word, high byte first (R92). -/
theorem wordAt_placeWord (a : Nat) (op : Word) (s : State) : (placeWord a op s).mem.wordAt a = op := by
  have hhi : (placeWord a op s).mem.read a = hiByte op := by
    rw [placeWord_mem, Memory.read_store, if_neg (Nat.ne_add_one a), Memory.read_store, if_pos rfl]
  have hlo : (placeWord a op s).mem.read (a + 1) = loByte op := by
    rw [placeWord_mem, Memory.read_store, if_pos rfl]
  rw [Memory.wordAt, hhi, hlo, joinBytes_hi_lo]

theorem read_placeWord_other {a b : Nat} (op : Word) (s : State) (hhi : b ≠ a) (hlo : b ≠ a + 1) :
    (placeWord a op s).mem.read b = s.mem.read b := by
  rw [placeWord_mem, Memory.read_store, if_neg hlo, Memory.read_store, if_neg hhi]

/-- The two LoadBytes of a word have the effect of placing it. -/
theorem applyHostOps_loadWord {addr next : Addr} (op : Word) {s : State} (hidle : s.status = .idle)
    (hnext : next.toNat = addr.toNat + 1) :
    applyHostOps [.loadByte addr (hiByte op), .loadByte next (loByte op)] s = .next (placeWord addr.toNat op s) := by
  rw [applyHostOps_loadByte_loadByte _ _ _ _ hidle, hnext, placeWord]

/-- Up to 0xFFE the next address is an address of memory, and the two LoadBytes exist (R43, R92). -/
theorem loadWordOps_of_le {addr : Addr} (op : Word) (h : addr.toNat ≤ Config.maxFetch) :
    (addr + 1).toNat = addr.toNat + 1 ∧
      loadWordOps addr op = some [.loadByte addr (hiByte op), .loadByte (addr + 1) (loByte op)] := by
  have hsome : loadWordOps addr op = some _ := if_pos h
  obtain ⟨-, hnext, -⟩ := loadWordOps_eq_some.1 hsome
  exact ⟨hnext, hsome⟩

/-! ### The statements -/

/-- Settles O41: each operation by its own test on `status`, and a core that is not Running steps to the same state. -/
theorem hostOperationsByStatus : Obligations.HostOperationsByStatus := by
  refine fun s => ⟨⟨State.reset, rfl⟩, fun a v => exists_loadByte_next_iff a v s,
    fun i v => exists_setReg_next_iff i v s, applyHostOp_run_of_idle, applyHostOp_run_of_not_idle,
    inspect_status s, inspect_rest_of_not_running, inspect_rest_of_running, fun t h hne => ?_⟩
  by_contra hstop
  cases (step_eq_self hstop).symm.trans h
  exact hne rfl

/-- Settles O42: a LoadByte is one store, a later store to an address is the one that is read, and the two LoadBytes of
a word have the effect of `placeWord`. -/
theorem loadByteSetsOneByte : Obligations.LoadByteSetsOneByte := by
  refine ⟨fun addr v s hidle => ⟨_, applyHostOp_loadByte_eq_next addr v hidle, ?_, fun b hb => ?_, rfl⟩,
    fun addr v s t hnot h => hnot ((exists_loadByte_next_iff addr v s).1 ⟨t, h⟩),
    fun addr v w s hidle => ⟨_, applyHostOps_loadByte_loadByte addr addr v w hidle, ?_⟩,
    fun addr op s hidle hle => ?_⟩
  · rw [Memory.read_store, if_pos rfl]
  · rw [Memory.read_store, if_neg hb]
  · rw [Memory.read_store, if_pos rfl]
  · obtain ⟨hnext, hops⟩ := loadWordOps_of_le op hle
    exact ⟨addr + 1, placeWord addr.toNat op s, hnext, hops, applyHostOps_loadWord op hidle hnext,
      wordAt_placeWord _ op s, fun _ => read_placeWord_other op s, rfl⟩

/-- Settles O52: the operations that place a word are two LoadBytes, the second at the next address, which exists up to
0xFFE. -/
theorem wordPlacementStaysInMemory : Obligations.WordPlacementStaysInMemory := by
  refine ⟨fun addr op => ⟨fun ⟨_, h⟩ => (loadWordOps_eq_some.1 h).1,
    fun hle => ⟨_, (loadWordOps_of_le op hle).2⟩⟩, fun addr op ops h o ho => ?_⟩
  obtain ⟨-, hnext, rfl⟩ := loadWordOps_eq_some.1 h
  obtain rfl | rfl := List.mem_pair.1 ho
  · exact ⟨addr, _, rfl, .inl rfl⟩
  · exact ⟨addr + 1, _, rfl, .inr hnext⟩

end Sys2Proof.Machine
end

section
/-! Proofs of the statements on the fatal conditions (spec/60_exceptions.md R102 to R104): the diagnostic of a full
stack, the fallback of the decoder, and the state a step leaves on a CALL, a RETURN or an opcode that is fatal. -/

namespace Sys2Proof.Machine

/-! ### The conditions of the call stack, their diagnostic as a number -/

theorem spWord_of_full {s : State} (h : s.sp = 16) : spWord s = 16 := by
  rw [spWord_eq, h]
  rfl

theorem raiseStackOverflow_of_full {s : State} (h : s.sp = 16) :
    raiseStackOverflow s = takeFatal .stackOverflow 16 s := by
  rw [raiseStackOverflow, spWord_of_full h]

theorem raiseStackUnderflow_of_empty {s : State} (h : s.sp = 0) :
    raiseStackUnderflow s = takeFatal .stackUnderflow 0 s := by
  rw [raiseStackUnderflow, spWord_of_empty h]

/-! ### The fallback of the decoder -/

/-- An opcode that selects no instruction falls through to the last class (R50, R51). -/
theorem isUnimplemented_of_decodeWord_ne_ok {op : Word} (h : ∀ i, decodeWord op ≠ .ok i) :
    isUnimplemented op = true := by
  cases hd : decodeWord op with
  | ok i => exact absurd hd (h i)
  | error e => exact (decodeWord_error hd).2

/-! ### The statements -/

/-- Settles O19: an opcode that is none of the four instructions is of the unimplemented class, which dispatch raises
after the advance of `pc`. -/
theorem unimplementedOpcodeIsFatal : Obligations.UnimplementedOpcodeIsFatal := by
  intro s hrun hpc hhalt hret hcall hadd
  have hnone : ∀ i, decodeWord (opcodeAtPc s) ≠ .ok i := by
    intro i
    cases i with
    | halt => exact hhalt
    | ret => exact hret
    | call nnn => exact hcall nnn
    | add x y => exact hadd x y
  exact step_eq_unimplementedOpcode hrun hpc (isUnimplemented_of_decodeWord_ne_ok hnone)

/-- Settles O20: the CALL runs in the state fetch advanced, where `sp` is still 16 and no slot is free. -/
theorem stackOverflowIsFatal : Obligations.StackOverflowIsFatal := by
  intro nnn s hi hfull
  have hsp : (advancePc s).sp = 16 := Fin.ext (Nat.le_antisymm s.sp.is_le hfull)
  calc step s = execCall nnn (advancePc s) := step_eq_exec hi
    _ = .next (raiseStackOverflow (advancePc s)) := execCall_eq_overflow nnn hsp
    _ = .next (takeFatal .stackOverflow 16 (advancePc s)) := by rw [raiseStackOverflow_of_full hsp]

/-- Settles O21: the RETURN runs in the state fetch advanced, where `sp` is still 0 and no slot is live. -/
theorem stackUnderflowIsFatal : Obligations.StackUnderflowIsFatal := by
  intro s hi hempty
  have hsp : (advancePc s).sp = 0 := Fin.ext hempty
  calc step s = execRet (advancePc s) := step_eq_exec hi
    _ = .next (raiseStackUnderflow (advancePc s)) := execRet_eq_underflow hsp
    _ = .next (takeFatal .stackUnderflow 0 (advancePc s)) := by rw [raiseStackUnderflow_of_empty hsp]

end Sys2Proof.Machine
end

section
/-! Proofs of the statement on the entry point (spec/70_reset_and_hazards.md R121): the opcode at the `pc` of a launch
state, and `pc` under the host's operations. -/

namespace Sys2Proof.Machine

/-! ### The first opcode of a run -/

/-- Every launch state has `pc = 0` (R98), so the opcode there is the first word of the loaded memory. -/
theorem opcodeAtPc_launchState (m : Memory) (x : Vector Byte 16) :
    opcodeAtPc (launchState m x) = joinBytes (m.read 0) (m.read 1) := rfl

/-! ### The program counter under the host's operations -/

/-- Only Reset writes `pc`, and the value it writes is 0 (R91, R97). -/
theorem applyHostOp_pc {op : HostOp} {s t : State} (h : applyHostOp op s = .next t) :
    t.pc = 0 ∨ t.pc = s.pc := by
  obtain ⟨-, rfl⟩ | ⟨a, v, -, -, rfl⟩ | ⟨i, v, -, -, rfl⟩ | ⟨-, -, rfl⟩ | ⟨-, -, rfl⟩ := applyHostOp_cases h
  · exact .inl rfl
  all_goals exact .inr rfl

/-! ### The statement -/

/-- Settles O46: a launch state is Running with `pc` in bounds, so its fetch answers the opcode there, and the host
writes no `pc` but 0. -/
theorem runsStartAtAddressZero : Obligations.RunsStartAtAddressZero := by
  refine ⟨fun m x => ⟨advancePc (launchState m x), ?_⟩, fun op s t hs h => ?_⟩
  · have hpc : (launchState m x).pc.val ≤ Config.maxFetch := Nat.zero_le _
    rw [fetch_eq_opcode (launchState_status m x) hpc, opcodeAtPc_launchState]
  · exact (applyHostOp_pc h).elim id fun hkeep => hkeep.trans hs

end Sys2Proof.Machine
end

section
/-! Proofs of the statements on the invariant (spec/10_state.md R12, R14, R17, R19, R20, spec/50_interfaces.md R98): what
each part of it asks, what keeps it in an instruction, in a step and in a host operation, and the reachable states. -/

namespace Sys2Proof.Machine

/-! ### What a step of a Running core can be -/

/-- A step of a Running core is an out-of-bounds fetch, one instruction in the state fetch advanced, or an unimplemented
opcode (R60). -/
theorem step_next_cases {s t : State} (hrun : s.status = .running) (h : step s = .next t) :
    (Config.maxFetch < s.pc.val ∧ t = raiseOutOfBoundsFetch s) ∨
    (∃ i, AboutToRun i s ∧ exec i (advancePc s) = .next t) ∨
    (s.pc.val ≤ Config.maxFetch ∧ isUnimplemented (opcodeAtPc s) = true ∧
      t = raiseUnimplementedOpcode (opcodeAtPc s) (advancePc s)) := by
  obtain ⟨hstop, -⟩ | ⟨-, hout, e⟩ | ⟨i, hi, e⟩ | ⟨-, hpc, hu, e⟩ := step_cases s
  · exact absurd hrun hstop
  · cases e.symm.trans h
    exact .inl ⟨hout, rfl⟩
  · exact .inr (.inl ⟨i, hi, e.symm.trans h⟩)
  · cases e.symm.trans h
    exact .inr (.inr ⟨hpc, hu, rfl⟩)

/-! ### The parts of the invariant -/

theorem pcInRange (s : State) : PcInRange s := pcValueWord_toNat_le s.pc

/-- Without a fatal condition `cause` and `info` are as reset leaves them (R19, R20). -/
theorem Inv.cause_info {s : State} (hs : Inv s) (hok : s.status ≠ .faulted) :
    s.cause = .none ∧ s.info = 0 := by
  obtain ⟨-, -, -, -, hcause, ⟨hinfo, -⟩, -⟩ := hs
  exact ⟨hcause.2 hok, hinfo (hcause.2 hok)⟩

theorem inv_of_not_faulted {s : State} (hmem : s.mem.wf = true) (hlive : LiveSlotsReturn s)
    (hslots : SlotsZeroOrReturn s) (hok : s.status ≠ .faulted) (hcause : s.cause = .none ∧ s.info = 0)
    (hfresh : IdleIsFresh s) : Inv s := by
  obtain ⟨hnone, hzero⟩ := hcause
  have hinfo : InfoMatchesCause s := by simp [InfoMatchesCause, hnone, hzero]
  exact ⟨hmem, pcInRange s, hlive, hslots, iff_of_true hnone hok, hinfo, hfresh⟩

theorem idleIsFresh_of_not_idle {s : State} (hnot : s.status ≠ .idle) : IdleIsFresh s :=
  fun hidle => absurd hidle hnot

/-- A fatal condition keeps the invariant if it records the diagnostic its cause asks for (R106). -/
theorem inv_takeFatal {s : State} {c : Cause} {v : Word} (hs : Inv s) (hc : c ≠ .none)
    (hinfo : InfoMatchesCause (takeFatal c v s)) : Inv (takeFatal c v s) := by
  obtain ⟨hmem, -, hlive, hslots, -, -, -⟩ := hs
  exact ⟨hmem, pcInRange _, hlive, hslots, iff_of_false hc (not_not.2 rfl), hinfo, nofun⟩

/-! ### The slots under a push and a pop -/

/-- The pushed slot becomes the topmost live one (R17, R78). -/
theorem liveSlotsReturn_pushSlot {s : State} {k : SlotIx} {v : PcValue} (hs : LiveSlotsReturn s)
    (hk : s.sp.val = k.val) (hv : IsReturnAddress v) : LiveSlotsReturn (pushSlot k v s) := by
  intro j hj
  rw [readSlot_pushSlot]
  split_ifs with hjk
  · exact hv
  · have hne : j.val ≠ k.val := Fin.val_ne_of_ne hjk
    have hlt : j.val < k.val + 1 := hj
    exact hs j (by omega)

theorem slotsZeroOrReturn_pushSlot {s : State} {k : SlotIx} {v : PcValue} (hs : SlotsZeroOrReturn s)
    (hv : IsReturnAddress v) : SlotsZeroOrReturn (pushSlot k v s) := by
  intro j
  rw [readSlot_pushSlot]
  split_ifs
  · exact .inr hv
  · exact hs j

/-- A pop leaves fewer slots live (R79). -/
theorem liveSlotsReturn_popSlot {s : State} {k : SlotIx} (hs : LiveSlotsReturn s)
    (hk : s.sp.val = k.val + 1) : LiveSlotsReturn (popSlot k s) := by
  intro j hj
  have hlt : j.val < k.val := hj
  exact hs j (by omega)

/-! ### An instruction and a step keep the invariant -/

/-- In bounds fetch makes `pc` a return address: that of a CALL at the old `pc` (R17, R61). -/
theorem isReturnAddress_advancePc {s : State} (hpc : s.pc.val ≤ Config.maxFetch) :
    IsReturnAddress (advancePc s).pc := by
  have hval := advancePc_val hpc
  exact ⟨by omega, (advancePc s).pc.is_le⟩

theorem inv_advancePc {s : State} (hs : Inv s) (hrun : s.status = .running) : Inv (advancePc s) := by
  have hok : s.status ≠ .faulted := by rw [hrun]; decide
  have hnot : s.status ≠ .idle := by rw [hrun]; decide
  have hcause := hs.cause_info hok
  obtain ⟨hmem, -, hlive, hslots, -, -, -⟩ := hs
  exact inv_of_not_faulted hmem hlive hslots hok hcause (idleIsFresh_of_not_idle hnot)

/-- An instruction keeps the invariant, `pc` being the address after it: a CALL stores that address. -/
theorem exec_inv {i : Instr} {s t : State} (hs : Inv s) (hrun : s.status = .running)
    (hpc : IsReturnAddress s.pc) (h : exec i s = .next t) : Inv t := by
  have hok : s.status ≠ .faulted := by rw [hrun]; decide
  have hnot : s.status ≠ .idle := by rw [hrun]; decide
  have hcause := hs.cause_info hok
  obtain ⟨hmem, -, hlive, hslots, -, -, -⟩ := id hs
  obtain ⟨-, e⟩ | ⟨-, hsp, e⟩ | ⟨k, -, hk, e⟩ | ⟨nnn, -, hsp, e⟩ | ⟨nnn, k, -, hk, e⟩ | ⟨x, y, -, e⟩ :=
    exec_cases i s <;> cases e.symm.trans h
  case inl => exact inv_of_not_faulted hmem hlive hslots nofun hcause nofun
  case inr.inl =>
    rw [raiseStackUnderflow_of_empty hsp]
    exact inv_takeFatal hs nofun ⟨nofun, nofun, nofun, fun _ => ⟨rfl, hsp⟩, nofun⟩
  case inr.inr.inl =>
    have hpopped := liveSlotsReturn_popSlot hlive hk
    exact inv_of_not_faulted hmem hpopped hslots hok hcause (idleIsFresh_of_not_idle hnot)
  case inr.inr.inr.inl =>
    rw [raiseStackOverflow_of_full hsp]
    exact inv_takeFatal hs nofun ⟨nofun, nofun, fun _ => ⟨rfl, hsp⟩, nofun, nofun⟩
  case inr.inr.inr.inr.inl =>
    have hpushed := liveSlotsReturn_pushSlot hlive hk hpc
    have hslots' := slotsZeroOrReturn_pushSlot (k := k) hslots hpc
    exact inv_of_not_faulted hmem hpushed hslots' hok hcause (idleIsFresh_of_not_idle hnot)
  case inr.inr.inr.inr.inr =>
    exact inv_of_not_faulted hmem hlive hslots hok hcause (idleIsFresh_of_not_idle hnot)

theorem inv_raiseOutOfBoundsFetch {s : State} (hs : Inv s) (hout : Config.maxFetch < s.pc.val) :
    Inv (raiseOutOfBoundsFetch s) :=
  inv_takeFatal hs nofun ⟨nofun, fun _ => ⟨rfl, hout⟩, nofun, nofun, nofun⟩

/-- The rejected opcode stands just below the advanced `pc` (R107). -/
theorem inv_raiseUnimplementedOpcode {s : State} (hs : Inv (advancePc s)) (hpc : s.pc.val ≤ Config.maxFetch)
    (hu : isUnimplemented (opcodeAtPc s) = true) :
    Inv (raiseUnimplementedOpcode (opcodeAtPc s) (advancePc s)) := by
  obtain ⟨hlow, -⟩ := isReturnAddress_advancePc hpc
  have hop : opcodeAtPc s = s.mem.wordAt ((advancePc s).pc.val - 2) := by
    rw [advancePc_val hpc, Nat.add_sub_cancel, opcodeAtPc]
  exact inv_takeFatal hs nofun ⟨nofun, nofun, nofun, nofun, fun _ => ⟨hu, hlow, hop⟩⟩

theorem step_inv {s t : State} (hs : Inv s) (h : step s = .next t) : Inv t := by
  by_cases hrun : s.status = .running
  · obtain ⟨hout, rfl⟩ | ⟨i, ⟨-, hpc, -⟩, hexec⟩ | ⟨hpc, hu, rfl⟩ := step_next_cases hrun h
    · exact inv_raiseOutOfBoundsFetch hs hout
    · exact exec_inv (inv_advancePc hs hrun) hrun (isReturnAddress_advancePc hpc) hexec
    · exact inv_raiseUnimplementedOpcode (inv_advancePc hs hrun) hpc hu
  · cases (step_eq_self hrun).symm.trans h
    exact hs

/-! ### Reset and the host's operations keep the invariant -/

@[simp] theorem readReg_reset (i : RegIx) : readReg i State.reset = 0 := Vector.getElem_replicate i.isLt

@[simp] theorem readSlot_reset (k : SlotIx) : readSlot k State.reset = 0 := Vector.getElem_replicate k.isLt

theorem inv_reset : Inv State.reset :=
  inv_of_not_faulted reset_mem_wf nofun (fun k => .inl (readSlot_reset k)) nofun ⟨rfl, rfl⟩
    fun _ => ⟨rfl, rfl, rfl⟩

theorem applyHostOp_inv {op : HostOp} {s t : State} (hs : Inv s) (h : applyHostOp op s = .next t) :
    Inv t := by
  have hcause : s.status = .idle → s.cause = .none ∧ s.info = 0 :=
    fun hidle => hs.cause_info (by rw [hidle]; decide)
  obtain ⟨hmem, -, hlive, hslots, -, -, hfresh⟩ := id hs
  obtain ⟨-, rfl⟩ | ⟨a, v, -, hidle, rfl⟩ | ⟨i, v, -, -, rfl⟩ | ⟨-, hidle, rfl⟩ | ⟨-, -, rfl⟩ :=
    applyHostOp_cases h
  · exact inv_reset
  · exact inv_of_not_faulted (Memory.wf_store hmem a.isLt) hlive hslots (by simp [hidle]) (hcause hidle) hfresh
  · exact hs
  · exact inv_of_not_faulted hmem hlive hslots nofun (hcause hidle) nofun
  · exact hs

/-! ### The reachable states -/

theorem move_inv {m : Move} {s t : State} (hs : Inv s) (h : move m s = .next t) : Inv t := by
  cases m with
  | core => exact step_inv hs h
  | host op => exact applyHostOp_inv hs h

/-- What every move keeps, every schedule of moves keeps. -/
theorem moves_preserves {P : State → Prop} (hmove : ∀ {m s t}, P s → move m s = .next t → P t)
    {ms : List Move} {s t : State} (hs : P s) (h : moves ms s = .next t) : P t := by
  induction ms generalizing s with
  | nil => cases h; exact hs
  | cons m ms ih =>
    rw [moves] at h
    cases hm : move m s with
    | next u => exact ih (hmove hs hm) (by rwa [hm] at h)
    | fault f => rw [hm] at h; cases h
    | refused r => rw [hm] at h; cases h

theorem inv_of_reachable {s : State} (h : Reachable s) : Inv s := by
  obtain ⟨ms, hms⟩ := h
  exact moves_preserves move_inv inv_reset hms

/-- Above 0x0FFE lie two values of `pc` (R14, R101). -/
theorem Inv.info_of_outOfBoundsFetch {s : State} (hs : Inv s) (hc : s.cause = .outOfBoundsFetch) :
    s.info = 0x0FFF ∨ s.info = 0x1000 := by
  obtain ⟨-, hrange, -, -, -, ⟨-, hinfo, -⟩, -⟩ := hs
  obtain ⟨hpc, hout⟩ := hinfo hc
  have hcases : (pcWord s).toNat = 0x0FFF ∨ (pcWord s).toNat = 0x1000 := by
    rw [PcInRange] at hrange
    rw [← pcWord_toNat] at hout
    simp only [Config.maxFetch] at hout
    omega
  rw [hpc]
  exact hcases.imp BitVec.eq_of_toNat_eq BitVec.eq_of_toNat_eq

/-! ### The statements -/

/-- Settles O35: by the cases of a step; a CALL pushes the advanced `pc`, which is a return address, and each fatal
condition records the diagnostic its cause asks for. -/
theorem stepKeepsTheInvariant : Obligations.StepKeepsTheInvariant := fun _ _ => step_inv

/-- Settles O34: no slot is live, every slot is 0 and there is no cause. -/
theorem invariantHoldsAtReset : Obligations.InvariantHoldsAtReset := inv_reset

/-- Settles O36: by the cases of a host operation; a LoadByte is a store within memory. -/
theorem hostOperationsKeepTheInvariant : Obligations.HostOperationsKeepTheInvariant :=
  fun _ _ _ => applyHostOp_inv

/-- Settles O37: by induction on the schedule, every move keeping the invariant. -/
theorem reachableStatesAreInRange : Obligations.ReachableStatesAreInRange :=
  fun _ h => ⟨inv_of_reachable h, (inv_of_reachable h).info_of_outOfBoundsFetch⟩

end Sys2Proof.Machine
end

section
/-! Proofs of the statements on which opcodes are no instruction (spec/30_encoding.md section 5) and on the lines an
assembler accepts (R54, decision D15). -/

namespace Sys2Proof

/-! ### The lines that assemble -/

theorem assemble_call {n : Nat} (h : n ≤ 0xFFF) : assemble (.call n) = some (.call (BitVec.ofNat 12 n)) :=
  if_pos h

theorem assemble_add {rx ry : Nat} (hx : rx ≤ 15) (hy : ry ≤ 15) :
    assemble (.add rx ry) = some (.add ⟨rx, Nat.lt_succ_of_le hx⟩ ⟨ry, Nat.lt_succ_of_le hy⟩) :=
  dif_pos ⟨Nat.lt_succ_of_le hx, Nat.lt_succ_of_le hy⟩

theorem exists_assemble_iff_wellFormed (l : AsmInstr) :
    (∃ i, assemble l = some i) ↔ l.wellFormed = true := by
  cases l with
  | halt => exact iff_of_true ⟨_, rfl⟩ rfl
  | ret => exact iff_of_true ⟨_, rfl⟩ rfl
  | call n => by_cases h : n ≤ 0xFFF <;> simp [assemble, AsmInstr.wellFormed, h]
  | add rx ry =>
    by_cases h : rx < 16 ∧ ry < 16 <;>
      simp [assemble, AsmInstr.wellFormed, h, ← Nat.lt_succ_iff]

/-! ### The statements -/

/-- Settles O10: in class 0 two opcodes are instructions, class 2 is CALL, and in class 8 sub-opcode 4 is ADD. -/
theorem unimplementedOpcodesByClass : Obligations.UnimplementedOpcodesByClass := by
  intro op
  have hlt : op.toNat < 2 ^ 16 := op.isLt
  rw [isUnimplemented_iff, isHalt_iff, isReturn_iff, isCall_iff, isAdd_iff]
  omega

/-- Settles O12: the tests of the assembler are those of well-formedness, and each opcode is the sum of its fields. -/
theorem assemblerAcceptsItsOperandRanges : Obligations.AssemblerAcceptsItsOperandRanges := by
  refine ⟨exists_assemble_iff_wellFormed, rfl, rfl, fun n hn => ⟨_, assemble_call hn, ?_⟩,
    fun rx ry hx hy => ⟨_, assemble_add hx hy, encodeWord_add_toNat ..⟩⟩
  rw [encodeWord_call_toNat, BitVec.toNat_ofNat, Nat.mod_eq_of_lt (Nat.lt_succ_of_le hn)]

end Sys2Proof
end

section
/-! Proofs of the statements on how a step ends (spec/40_fetch_decode_dispatch.md R62 and section 5, spec/41_halt.md R75,
spec/60_exceptions.md R100, R105, R107) and on the word placed for the next fetch (notes/assumptions/2.md). -/

namespace Sys2Proof.Machine

/-! ### The instruction about to run, and HALT -/

/-- A step runs one instruction at most. -/
theorem AboutToRun.unique {i j : Instr} {s : State} (hi : AboutToRun i s) (hj : AboutToRun j s) : i = j := by
  obtain ⟨-, -, hi⟩ := hi
  obtain ⟨-, -, hj⟩ := hj
  exact Except.ok.inj (hi.symm.trans hj)

/-- The opcode at `pc` is that of the instruction about to run. -/
theorem AboutToRun.encodeWord_eq {i : Instr} {s : State} (hi : AboutToRun i s) : encodeWord i = opcodeAtPc s := by
  obtain ⟨-, -, hi⟩ := hi
  exact encodeWord_of_decodeWord hi

theorem aboutToRun_halt_iff {s : State} (hrun : s.status = .running) :
    AboutToRun .halt s ↔ s.pc.val ≤ Config.maxFetch ∧ opcodeAtPc s = 0x0000 := by
  refine ⟨fun hi => ?_, fun ⟨hpc, hop⟩ => ⟨hrun, hpc, decodeWord_eq_ok_iff.2 hop.symm⟩⟩
  have hop := hi.encodeWord_eq
  obtain ⟨-, hpc, -⟩ := hi
  exact ⟨hpc, hop.symm⟩

/-- HALT alone makes a Running core Halted (R75). -/
theorem exec_status_eq_halted_iff {i : Instr} {s t : State} (hrun : s.status = .running)
    (h : exec i s = .next t) : t.status = .halted ↔ i = .halt := by
  refine ⟨fun ht => ?_, fun hi => ?_⟩
  · by_contra hne
    obtain hkeep | hfault := exec_status h hne
    · rw [hkeep, hrun] at ht
      cases ht
    · rw [hfault] at ht
      cases ht
  · subst hi
    cases (execHalt_eq s).symm.trans h
    rfl

theorem step_status_eq_halted_iff {s t : State} (hrun : s.status = .running) (h : step s = .next t) :
    t.status = .halted ↔ AboutToRun .halt s := by
  obtain ⟨hout, rfl⟩ | ⟨i, hi, hexec⟩ | ⟨-, hu, rfl⟩ := step_next_cases hrun h
  · exact iff_of_false nofun fun ⟨_, hpc, _⟩ => Nat.not_lt.2 hpc hout
  · rw [exec_status_eq_halted_iff ((advancePc_status s).trans hrun) hexec]
    exact ⟨fun he => he ▸ hi, hi.unique⟩
  · refine iff_of_false nofun fun hi => ?_
    rw [← hi.encodeWord_eq, isUnimplemented_encodeWord] at hu
    cases hu

/-! ### The fatal conditions of a step -/

/-- Under which condition on the state before the step each cause is recorded (R100, R105). -/
def FatalCondition (s : State) : Cause → Prop
  | .none => True
  | .outOfBoundsFetch => Config.maxFetch < s.pc.val
  | .stackOverflow => (∃ nnn, AboutToRun (.call nnn) s) ∧ s.sp = 16
  | .stackUnderflow => AboutToRun .ret s ∧ s.sp = 0
  | .unimplementedOpcode => s.pc.val ≤ Config.maxFetch ∧ isUnimplemented (opcodeAtPc s) = true

theorem exec_fatalCondition {i : Instr} {s t : State} (hi : AboutToRun i s) (hcause : s.cause = .none)
    (h : exec i (advancePc s) = .next t) : FatalCondition s t.cause := by
  have hnone : FatalCondition s s.cause := by
    rw [hcause]
    trivial
  obtain ⟨-, e⟩ | ⟨rfl, hsp, e⟩ | ⟨k, -, -, e⟩ | ⟨nnn, rfl, hsp, e⟩ | ⟨nnn, k, -, -, e⟩ | ⟨x, y, -, e⟩ :=
    exec_cases i (advancePc s) <;> rw [h] at e <;> cases e
  · exact hnone
  · exact ⟨hi, hsp⟩
  · exact hnone
  · exact ⟨⟨nnn, hi⟩, hsp⟩
  · exact hnone
  · exact hnone

/-- A step records no cause but one whose condition holds. -/
theorem step_fatalCondition {s t : State} (hrun : s.status = .running) (hcause : s.cause = .none)
    (h : step s = .next t) : FatalCondition s t.cause := by
  obtain ⟨hout, rfl⟩ | ⟨i, hi, hexec⟩ | ⟨hpc, hu, rfl⟩ := step_next_cases hrun h
  · exact hout
  · exact exec_fatalCondition hi hcause hexec
  · exact ⟨hpc, hu⟩

/-- A step records the cause whose condition holds. -/
theorem step_cause_of_fatalCondition {c : Cause} {s t : State} (hrun : s.status = .running) (hc : c ≠ .none)
    (hf : FatalCondition s c) (h : step s = .next t) : t.cause = c := by
  cases c with
  | none => exact absurd rfl hc
  | outOfBoundsFetch =>
    cases (step_eq_outOfBoundsFetch hrun hf).symm.trans h
    rfl
  | stackOverflow =>
    obtain ⟨⟨nnn, hi⟩, hsp⟩ := hf
    cases (stackOverflowIsFatal nnn s hi (by rw [hsp]; decide)).symm.trans h
    rfl
  | stackUnderflow =>
    obtain ⟨hi, hsp⟩ := hf
    cases (stackUnderflowIsFatal s hi (by rw [hsp]; decide)).symm.trans h
    rfl
  | unimplementedOpcode =>
    obtain ⟨hpc, hu⟩ := hf
    cases (step_eq_unimplementedOpcode hrun hpc hu).symm.trans h
    rfl

theorem step_cause_eq_iff {c : Cause} {s t : State} (hrun : s.status = .running) (hcause : s.cause = .none)
    (h : step s = .next t) (hc : c ≠ .none) : t.cause = c ↔ FatalCondition s c :=
  ⟨fun e => e ▸ step_fatalCondition hrun hcause h, fun hf => step_cause_of_fatalCondition hrun hc hf h⟩

/-! ### The state a fatal condition leaves -/

/-- An instruction that ends a run Faulted has made none of its own writes (R65). -/
theorem exec_eq_takeFatal {i : Instr} {s t : State} (hok : s.status ≠ .faulted) (h : exec i s = .next t)
    (ht : t.status = .faulted) :
    ∃ c v, c ≠ .none ∧ c ≠ .outOfBoundsFetch ∧ t = takeFatal c v s := by
  obtain ⟨-, e⟩ | ⟨-, -, e⟩ | ⟨k, -, -, e⟩ | ⟨nnn, -, -, e⟩ | ⟨nnn, k, -, -, e⟩ | ⟨x, y, -, e⟩ :=
    exec_cases i s <;> cases e.symm.trans h
  · cases ht
  · exact ⟨.stackUnderflow, _, nofun, nofun, rfl⟩
  · exact absurd ht hok
  · exact ⟨.stackOverflow, _, nofun, nofun, rfl⟩
  · exact absurd ht hok
  · exact absurd ht hok

/-- A step that ends Faulted has taken a fatal condition and, but for an out-of-bounds fetch, advanced `pc` (R107). -/
theorem step_eq_takeFatal {s t : State} (hrun : s.status = .running) (h : step s = .next t)
    (ht : t.status = .faulted) :
    (∃ v, t = takeFatal .outOfBoundsFetch v s) ∨
    (∃ c v, c ≠ .none ∧ c ≠ .outOfBoundsFetch ∧ t = takeFatal c v (advancePc s)) := by
  have hok : (advancePc s).status ≠ .faulted := by rw [advancePc_status, hrun]; decide
  obtain ⟨-, rfl⟩ | ⟨i, -, hexec⟩ | ⟨-, -, rfl⟩ := step_next_cases hrun h
  · exact .inl ⟨_, rfl⟩
  · exact .inr (exec_eq_takeFatal hok hexec ht)
  · exact .inr ⟨.unimplementedOpcode, _, nofun, nofun, rfl⟩

theorem step_cause_of_not_faulted {s t : State} (hrun : s.status = .running) (h : step s = .next t)
    (hok : t.status ≠ .faulted) : t.cause = s.cause := by
  obtain ⟨-, rfl⟩ | ⟨i, -, hexec⟩ | ⟨-, -, rfl⟩ := step_next_cases hrun h
  · exact absurd rfl hok
  · exact (exec_cause_info hexec hok).1
  · exact absurd rfl hok

theorem step_status_eq_faulted_iff {s t : State} (hrun : s.status = .running) (hcause : s.cause = .none)
    (h : step s = .next t) : t.status = .faulted ↔ t.cause ≠ .none := by
  refine ⟨fun ht => ?_, fun hc => ?_⟩
  · obtain ⟨v, rfl⟩ | ⟨c, v, hc, -, rfl⟩ := step_eq_takeFatal hrun h ht
    · exact nofun
    · exact hc
  · by_contra hok
    exact hc ((step_cause_of_not_faulted hrun h hok).trans hcause)

/-- Past the advance the address of the faulting instruction is `pc - 2` (R107). -/
theorem faultingAddress_takeFatal_advancePc {c : Cause} (hc : c ≠ .outOfBoundsFetch) (v : Word) (s : State) :
    faultingAddress (takeFatal c v (advancePc s)) = s.pc := by
  rw [faultingAddress, takeFatal_cause, if_neg hc, takeFatal_pc, advancePc_pc, add_sub_cancel_right]

/-! ### The word placed for the next fetch -/

theorem tableWord_toNat (op : Word) : tableWord 16 op.toNat = op := by
  rw [tableWord, Nat.mod_eq_of_lt op.isLt, BitVec.ofNat_toNat, BitVec.setWidth_eq]

/-- The word is placed where a fetch is in bounds, at the entry point where `pc` is not (R121). -/
theorem withFetchWord_pc_le (s : State) (nbits w : Nat) :
    (s.withFetchWord nbits w).pc.val ≤ Config.maxFetch := by
  show (if s.pc.val ≤ Config.maxFetch then s.pc else 0).val ≤ Config.maxFetch
  split_ifs with hpc
  · exact hpc
  · exact Nat.zero_le _

theorem withFetchWord_pc {s : State} (hpc : s.pc.val ≤ Config.maxFetch) (nbits w : Nat) :
    (s.withFetchWord nbits w).pc = s.pc := if_pos hpc

theorem opcodeAtPc_withFetchWord (s : State) (nbits w : Nat) :
    opcodeAtPc (s.withFetchWord nbits w) = tableWord nbits w := wordAt_placeWord ..

theorem aboutToRun_withFetchWord (i : Instr) (s : State) :
    AboutToRun i (s.withFetchWord 16 (encodeWord i).toNat) := by
  refine ⟨rfl, withFetchWord_pc_le .., ?_⟩
  rw [opcodeAtPc_withFetchWord, tableWord_toNat, decodeWord_encodeWord]

/-! ### The statements -/

/-- Settles O18: the bound check comes first and the step ends with it. -/
theorem outOfBoundsFetchIsFatal : Obligations.OutOfBoundsFetchIsFatal := fun _ => step_eq_outOfBoundsFetch

/-- Settles O24: HALT is one update of `status`, run in the state fetch advanced. -/
theorem haltEndsTheRun : Obligations.HaltEndsTheRun := ⟨execHalt_eq, fun _ => step_eq_exec⟩

/-- Settles O39: among the instructions HALT alone makes the core Halted, and its opcode is 0x0000. -/
theorem haltedOnlyByTheZeroOpcode : Obligations.HaltedOnlyByTheZeroOpcode := fun _ _ hrun h =>
  (step_status_eq_halted_iff hrun h).trans (aboutToRun_halt_iff hrun)

/-- Settles O22: the conditions are those of `FatalCondition`, and `cause` is written with `status` alone. -/
theorem eachFatalConditionArisesExactlyWhen : Obligations.EachFatalConditionArisesExactlyWhen :=
  fun _ _ hrun hcause h =>
    ⟨step_cause_eq_iff hrun hcause h nofun, step_cause_eq_iff hrun hcause h nofun,
      step_cause_eq_iff hrun hcause h nofun, step_cause_eq_iff hrun hcause h nofun,
      step_status_eq_faulted_iff hrun hcause h⟩

/-- Settles O23: a fatal condition writes `status`, `cause` and `info` alone, after the advance of `pc` if the fetch was
in bounds. -/
theorem fatalConditionsArePrecise : Obligations.FatalConditionsArePrecise := by
  intro s t hrun h ht
  obtain ⟨v, rfl⟩ | ⟨c, v, -, hc, rfl⟩ := step_eq_takeFatal hrun h ht
  · exact ⟨rfl, rfl, rfl, rfl, rfl⟩
  · exact ⟨rfl, rfl, rfl, rfl, faultingAddress_takeFatal_advancePc hc v s⟩

/-- Settles O51: the fetch reads the placed word, whose instruction the step runs in the state fetch advanced. -/
theorem placedWordIsTheNextInstruction : Obligations.PlacedWordIsTheNextInstruction := by
  rintro i s w rfl
  exact ⟨step_eq_exec (aboutToRun_withFetchWord i s), rfl, rfl, rfl, fun hpc => withFetchWord_pc hpc _ _⟩

end Sys2Proof.Machine
end

section
/-! Proofs of the statements on the general registers (spec/10_state.md R10, spec/43_arithmetic.md R85): what ADD writes,
and the registers under the other instructions. -/

namespace Sys2Proof.Machine

/-! ### What ADD leaves unchanged -/

/-- An ADD writes registers alone (R85). -/
theorem exec_add_withRegs {x y : RegIx} {s t : State} (h : exec (.add x y) s = .next t) :
    t = { s with x := t.x } := by
  cases (execAdd_eq x y s).symm.trans h
  rfl

/-! ### The other instructions over other registers -/

/-- No instruction but ADD writes a register. -/
theorem exec_x {i : Instr} {s t : State} (hadd : ∀ a b, i ≠ .add a b) (h : exec i s = .next t) : t.x = s.x :=
  Vector.ext fun k hk => exec_readReg (r := ⟨k, hk⟩) h fun a b hi => absurd hi (hadd a b)

/-- HALT, CALL and RETURN have the same effect over other registers, which they keep (R10). -/
theorem exec_keepsRegs {i : Instr} (hadd : ∀ a b, i ≠ .add a b) (s : State) (x : Vector Byte 16) :
    ∃ t, exec i s = .next t ∧ t.x = s.x ∧ exec i { s with x := x } = .next { t with x := x } := by
  obtain ⟨t, x', h, h'⟩ := exec_withRegs i s x
  have hx : x' = x := exec_x hadd h'
  exact ⟨t, h, exec_x hadd h, hx ▸ h'⟩

/-! ### The statements -/

/-- Settles O27: the flag is the carry of the old operands, the destination keeps the sum unless it is the flag register,
and nothing but registers is written. -/
theorem addWritesSumThenFlag : Obligations.AddWritesSumThenFlag := by
  intro x y s
  obtain ⟨t, h⟩ := exec_total (.add x y) s
  have hframe := exec_add_withRegs h
  refine ⟨t, h, exec_add_readReg_flag h, fun hx => ?_, fun _ => exec_add_readReg_other h, ?_⟩
  · rw [exec_add_readReg_dest h hx, addResult_toNat]
  · rw [hframe]
    exact ⟨rfl, rfl, rfl, rfl, rfl, rfl, rfl⟩

/-- Settles O30: over other registers an instruction differs in the registers alone, and only an ADD writes these. -/
theorem haltCallReturnIgnoreRegisters : Obligations.HaltCallReturnIgnoreRegisters :=
  fun _ s x hadd => exec_keepsRegs hadd s x

end Sys2Proof.Machine
end

section
/-! Proofs of the statements on the two agents (spec/10_state.md R18, R22, spec/50_interfaces.md R93, R97, R98,
spec/60_exceptions.md R108): reset, what a host operation leaves unchanged, how `status` changes, and the boot order. -/

namespace Sys2Proof.Machine

/-! ### What a host operation leaves unchanged -/

/-- No host operation but Reset writes the control state (R97). -/
theorem applyHostOp_control {op : HostOp} {s t : State} (hop : op ≠ .reset) (h : applyHostOp op s = .next t) :
    t.pc = s.pc ∧ t.sp = s.sp ∧ t.stk = s.stk ∧ t.cause = s.cause ∧ t.info = s.info := by
  obtain ⟨hreset, -⟩ | ⟨a, v, -, -, rfl⟩ | ⟨i, v, -, -, rfl⟩ | ⟨-, -, rfl⟩ | ⟨-, -, rfl⟩ := applyHostOp_cases h
  case inl => exact absurd hreset hop
  all_goals exact ⟨rfl, rfl, rfl, rfl, rfl⟩

/-- No host operation but Reset and Run writes `status` (R97). -/
theorem applyHostOp_status {op : HostOp} {s t : State} (hreset : op ≠ .reset) (hrun : op ≠ .run)
    (h : applyHostOp op s = .next t) : t.status = s.status := by
  obtain ⟨he, -⟩ | ⟨a, v, -, -, rfl⟩ | ⟨i, v, -, -, rfl⟩ | ⟨he, -, -⟩ | ⟨he, -, -⟩ := applyHostOp_cases h
  · exact absurd he hreset
  · rfl
  · rfl
  · exact absurd he hrun
  · exact absurd he hrun

/-! ### How `status` changes -/

/-- A Running core stays Running, or is Halted by HALT, or Faulted (R18). -/
theorem step_status_cases {s t : State} (hrun : s.status = .running) (h : step s = .next t) :
    t.status = .running ∨ (t.status = .halted ∧ AboutToRun .halt s) ∨ t.status = .faulted := by
  obtain ⟨-, rfl⟩ | ⟨i, hi, hexec⟩ | ⟨-, -, rfl⟩ := step_next_cases hrun h
  · exact .inr (.inr rfl)
  · by_cases hhalt : i = .halt
    · have ht := (exec_status_eq_halted_iff (s := advancePc s) hrun hexec).2 hhalt
      exact .inr (.inl ⟨ht, hhalt ▸ hi⟩)
    · obtain hkeep | hfault := exec_status hexec hhalt
      · exact .inl (hkeep.trans hrun)
      · exact .inr (.inr hfault)
  · exact .inr (.inr rfl)

/-- A host operation other than Reset leaves a core that has ended as it is (R108). -/
theorem applyHostOp_eq_of_ended {op : HostOp} {s t : State} (hend : Ended s) (hop : op ≠ .reset)
    (h : applyHostOp op s = .next t) : t = s := by
  have hnot : s.status ≠ .idle := by obtain he | he := hend <;> rw [he] <;> decide
  obtain ⟨hreset, -⟩ | ⟨a, v, -, hidle, -⟩ | ⟨i, v, -, hidle, -⟩ | ⟨-, hidle, -⟩ | ⟨-, -, ht⟩ :=
    applyHostOp_cases h
  · exact absurd hreset hop
  · exact absurd hidle hnot
  · exact absurd hidle hnot
  · exact absurd hidle hnot
  · exact ht

/-! ### Lists of host operations -/

theorem applyHostOps_cons {op : HostOp} {s t : State} (h : applyHostOp op s = .next t) (ops : List HostOp) :
    applyHostOps (op :: ops) s = applyHostOps ops t := by
  simp only [applyHostOps, h]

theorem applyHostOps_append {ops : List HostOp} {s t : State} (h : applyHostOps ops s = .next t)
    (ops' : List HostOp) : applyHostOps (ops ++ ops') s = applyHostOps ops' t := by
  induction ops generalizing s with
  | nil => cases h; rfl
  | cons op ops ih =>
    rw [List.cons_append]
    cases hop : applyHostOp op s with
    | next u =>
      rw [applyHostOps_cons hop] at h ⊢
      exact ih h
    | fault f => simp only [applyHostOps, hop] at h; cases h
    | refused r => simp only [applyHostOps, hop] at h; cases h

/-! ### The loads and presets of the boot order -/

/-- A load or a preset: the host operations between Reset and Run (R122). -/
def IsLoadOrPreset (op : HostOp) : Prop := op ≠ .reset ∧ op ≠ .run

/-- Reset's state with another memory and other registers: what loads and presets make of it. -/
def bootState (m : Memory) (x : Vector Byte 16) : State := { State.reset with mem := m, x := x }

/-- A load or a preset in an Idle state is a move, and changes memory or registers alone. -/
theorem applyHostOp_loadOrPreset {op : HostOp} (hop : IsLoadOrPreset op) {m : Memory} (hm : m.wf = true)
    (x : Vector Byte 16) : ∃ (m' : Memory) (x' : Vector Byte 16), m'.wf = true ∧
      applyHostOp op (bootState m x) = .next (bootState m' x') := by
  obtain ⟨hreset, hrun⟩ := hop
  cases op with
  | reset => exact absurd rfl hreset
  | loadByte a v => exact ⟨_, x, Memory.wf_store hm a.isLt, applyHostOp_loadByte_eq_next a v rfl⟩
  | setReg i v => exact ⟨m, _, hm, applyHostOp_setReg_eq_next i v rfl⟩
  | run => exact absurd rfl hrun

theorem applyHostOps_loadsAndPresets {ops : List HostOp} (hops : ∀ op ∈ ops, IsLoadOrPreset op)
    {m : Memory} (hm : m.wf = true) (x : Vector Byte 16) :
    ∃ (m' : Memory) (x' : Vector Byte 16), m'.wf = true ∧
      applyHostOps ops (bootState m x) = .next (bootState m' x') := by
  induction ops generalizing m x with
  | nil => exact ⟨m, x, hm, rfl⟩
  | cons op ops ih =>
    rw [List.forall_mem_cons] at hops
    obtain ⟨hop, hops⟩ := hops
    obtain ⟨m', x', hm', h⟩ := applyHostOp_loadOrPreset hop hm x
    rw [applyHostOps_cons h]
    exact ih hops hm' x'

/-- Reset, the loads and presets, and Run lead to a launch state (R98). -/
theorem applyHostOps_bootOps {ops : List HostOp} {m : Memory} {x : Vector Byte 16}
    (h : applyHostOps ops State.reset = .next (bootState m x)) (s : State) :
    applyHostOps (bootOps ops) s = .next (launchState m x) := by
  have hreset : applyHostOps [.reset] s = .next State.reset := rfl
  have hrun : applyHostOps [.run] (bootState m x) = .next (launchState m x) := rfl
  rw [bootOps, List.append_assoc, applyHostOps_append hreset, applyHostOps_append h, hrun]

/-! ### Operations that load a given memory and preset given registers -/

/-- The LoadBytes of a listed memory, last entry first, so that each byte goes below those already there. -/
def loadOps : Memory → List HostOp
  | [] => []
  | (k, w) :: m => loadOps m ++ [.loadByte (BitVec.ofNat 12 k) w]

/-- A byte stored below every listed address becomes the first entry. -/
theorem Memory.store_below {k : Nat} {w : Byte} {m : Memory} (hm : Memory.wfFrom (k + 1) m = true)
    (hw : w ≠ unlistedByte) : m.store k w = (k, w) :: m := by
  rw [Memory.store, if_neg hw]
  cases m with
  | nil => rfl
  | cons p m =>
    obtain ⟨k', w'⟩ := p
    obtain ⟨hlt, -⟩ := (Memory.wfFrom_cons ..).1 hm
    exact if_pos hlt

theorem applyHostOps_loadOps {lo : Nat} {m : Memory} (hm : Memory.wfFrom lo m = true) (x : Vector Byte 16) :
    applyHostOps (loadOps m) (bootState [] x) = .next (bootState m x) := by
  induction m generalizing lo with
  | nil => rfl
  | cons p m ih =>
    obtain ⟨k, w⟩ := p
    obtain ⟨-, hk, hw, hm⟩ := (Memory.wfFrom_cons ..).1 hm
    have haddr : (BitVec.ofNat 12 k).toNat = k := Nat.mod_eq_of_lt hk
    have hstore := applyHostOp_loadByte_eq_next (BitVec.ofNat 12 k) w (s := bootState m x) rfl
    rw [loadOps, applyHostOps_append (ih hm), applyHostOps_cons hstore, haddr, applyHostOps]
    show Host.Outcome.next (bootState (Memory.store m k w) x) = _
    rw [Memory.store_below hm hw]

theorem isLoadOrPreset_of_mem_loadOps {m : Memory} : ∀ op ∈ loadOps m, IsLoadOrPreset op := by
  induction m with
  | nil => exact nofun
  | cons p m ih =>
    obtain ⟨k, w⟩ := p
    rw [loadOps, List.forall_mem_append, List.forall_mem_singleton]
    exact ⟨ih, nofun, nofun⟩

/-- The SetRegs that give each register of `l` its value in `x`. -/
def presetOps (x : Vector Byte 16) (l : List RegIx) : List HostOp := l.map fun i => .setReg i x[i]

theorem isLoadOrPreset_of_mem_presetOps (x : Vector Byte 16) (l : List RegIx) :
    ∀ op ∈ presetOps x l, IsLoadOrPreset op := by
  intro op hop
  obtain ⟨i, -, rfl⟩ := List.mem_map.1 hop
  exact ⟨nofun, nofun⟩

theorem applyHostOps_presetOps (x : Vector Byte 16) (l : List RegIx) (m : Memory) (x0 : Vector Byte 16) :
    ∃ x' : Vector Byte 16, applyHostOps (presetOps x l) (bootState m x0) = .next (bootState m x') ∧
      ∀ i : RegIx, x'[i] = if i ∈ l then x[i] else x0[i] := by
  induction l generalizing x0 with
  | nil => exact ⟨x0, rfl, fun i => (if_neg List.not_mem_nil).symm⟩
  | cons j l ih =>
    obtain ⟨x', h, hx'⟩ := ih (x0.set j x[j])
    have hset := applyHostOp_setReg_eq_next j x[j] (s := bootState m x0) rfl
    refine ⟨x', (applyHostOps_cons hset _).trans h, fun i => ?_⟩
    rw [hx' i]
    by_cases hij : i = j
    · simp [hij]
    · simp [hij, Fin.val_ne_of_ne (Ne.symm hij)]

theorem applyHostOps_presetOps_finRange (x : Vector Byte 16) (m : Memory) (x0 : Vector Byte 16) :
    applyHostOps (presetOps x (List.finRange 16)) (bootState m x0) = .next (bootState m x) := by
  obtain ⟨x', h, hx'⟩ := applyHostOps_presetOps x (List.finRange 16) m x0
  have hx : x' = x := Vector.ext fun k hk => (hx' ⟨k, hk⟩).trans (if_pos (List.mem_finRange _))
  rw [h, hx]

/-! ### The statements -/

/-- Settles O33: Reset is one update, to the state with every field 0, Idle and without a cause. -/
theorem resetGivesEveryFieldItsValue : Obligations.ResetGivesEveryFieldItsValue :=
  ⟨fun _ => rfl, readReg_reset, Memory.read_nil, rfl, readSlot_reset, rfl, rfl, rfl, rfl⟩

/-- Settles O43: while Idle, SetReg is one register write. -/
theorem setRegSetsOneRegister : Obligations.SetRegSetsOneRegister := fun i v s hidle =>
  ⟨writeReg i v s, applyHostOp_setReg_eq_next i v hidle, fun r => readReg_writeReg i r v s, rfl⟩

/-- Settles O44: LoadByte writes memory, SetReg registers and Run `status`, each nothing else. -/
theorem hostCannotWriteControlState : Obligations.HostCannotWriteControlState := by
  intro op s t hreset h
  obtain ⟨hpc, hsp, hstk, hcause, hinfo⟩ := applyHostOp_control hreset h
  exact ⟨hpc, hsp, hstk, hcause, hinfo, fun hrun => applyHostOp_status hreset hrun h⟩

/-- Settles O40: a core that has ended takes no step, and Run does nothing outside Idle. -/
theorem endedStatesAreLeftOnlyByReset : Obligations.EndedStatesAreLeftOnlyByReset := by
  intro m s t hend hm h
  cases m with
  | core =>
    have hstop : s.status ≠ .running := by obtain he | he := hend <;> rw [he] <;> decide
    cases (step_eq_self hstop).symm.trans h
    rfl
  | host op => exact applyHostOp_eq_of_ended hend (fun he => hm (he ▸ rfl)) h

/-- Settles O38: by the ways a step can end and the cases of a host operation. -/
theorem statusTransitionsAreTheListed : Obligations.StatusTransitionsAreTheListed := by
  intro m s t h hne
  cases m with
  | core =>
    have hrun : s.status = .running := by
      by_contra hstop
      cases (step_eq_self hstop).symm.trans h
      exact hne rfl
    obtain hkeep | ⟨ht, hhalt⟩ | ht := step_status_cases hrun h
    · exact absurd (hkeep.trans hrun.symm) hne
    · exact .inr (.inr (.inl ⟨rfl, hrun, ht, hhalt⟩))
    · exact .inr (.inr (.inr ⟨rfl, hrun, ht⟩))
  | host op =>
    obtain ⟨rfl, rfl⟩ | ⟨a, v, -, -, rfl⟩ | ⟨i, v, -, -, rfl⟩ | ⟨rfl, hidle, rfl⟩ | ⟨-, -, rfl⟩ :=
      applyHostOp_cases h
    · exact .inl ⟨rfl, rfl⟩
    · exact absurd rfl hne
    · exact absurd rfl hne
    · exact .inr (.inl ⟨rfl, hidle, rfl⟩)
    · exact absurd rfl hne

/-- Settles O45: loads in falling address order list a canonical memory entry by entry and SetRegs preset the registers;
and loads and presets after Reset change nothing but these. -/
theorem bootReachesExactlyTheLaunchStates : Obligations.BootReachesExactlyTheLaunchStates := by
  refine ⟨fun s m x hm => ⟨loadOps m ++ presetOps x (List.finRange 16), ?_, ?_⟩, fun s ops hops => ?_⟩
  · exact List.forall_mem_append.2
      ⟨isLoadOrPreset_of_mem_loadOps, isLoadOrPreset_of_mem_presetOps x _⟩
  · have hload : applyHostOps (loadOps m) State.reset = _ := applyHostOps_loadOps hm State.reset.x
    exact applyHostOps_bootOps ((applyHostOps_append hload _).trans (applyHostOps_presetOps_finRange x m _)) s
  · obtain ⟨m, x, hm, h⟩ := applyHostOps_loadsAndPresets hops reset_mem_wf State.reset.x
    exact ⟨m, x, hm, applyHostOps_bootOps h s⟩

end Sys2Proof.Machine
end

section
/-! Proofs of the statements on runs of the core: a RETURN resumes after its CALL (spec/42_call_return.md R80) and every
run ends (spec/40_fetch_decode_dispatch.md R70). -/

namespace Sys2Proof.Machine

/-! ### A held return address stays in its slot -/

/-- No step writes a slot other than the free one, `stk[sp]` (R81). -/
theorem step_readSlot {s t : State} (h : step s = .next t) {k : SlotIx} (hk : k.val ≠ s.sp.val) :
    readSlot k t = readSlot k s := by
  by_cases hrun : s.status = .running
  · obtain ⟨-, rfl⟩ | ⟨i, -, hexec⟩ | ⟨-, -, rfl⟩ := step_next_cases hrun h
    · rfl
    · exact exec_readSlot (s := advancePc s) hexec fun _ _ => hk
    · rfl
  · cases (step_eq_self hrun).symm.trans h
    rfl

/-- Along steps that keep `sp` above a slot, the slot is never the free one. -/
theorem StaysAbove.readSlot_eq {k : SlotIx} {n : Nat} {s t : State} (h : StaysAbove k.val n s t) :
    readSlot k t = readSlot k s := by
  induction n generalizing s with
  | zero =>
    obtain ⟨-, rfl⟩ := h
    rfl
  | succ n ih =>
    obtain ⟨hlt, u, hu, h⟩ := h
    rw [ih h, step_readSlot hu hlt.ne]

theorem step_call {nnn : Addr} {s : State} {k : SlotIx} (hi : AboutToRun (.call nnn) s) (hk : s.sp.val = k.val) :
    step s = .next (setPc (targetOperand nnn) (pushSlot k (advancePc s).pc (advancePc s))) :=
  (step_eq_exec hi).trans (execCall_eq_push nnn (s := advancePc s) hk)

theorem step_ret {s : State} {k : SlotIx} (hi : AboutToRun .ret s) (hk : s.sp.val = k.val + 1) :
    step s = .next (setPc (readSlot k s) (popSlot k (advancePc s))) :=
  (step_eq_exec hi).trans (execRet_eq_pop (s := advancePc s) hk)

/-! ### The potential of a state -/

/-- How many instructions, two bytes each, fit between an address and the end of memory. -/
def wordsLeft (a : PcValue) : Nat := (Config.memSize - a.val) / 2

/-- An upper bound on the steps that one instruction of an activation accounts for, itself and those of the activations
it opens, when `d` more slots are free: a CALL opens one of at most 2048 instructions (R70). -/
def stepsPerWord : Nat → Nat
  | 0 => 1
  | d + 1 => 2048 * stepsPerWord d + 1

/-- The part of the potential of the activation at a depth, from the address at which it resumes. -/
def levelPotential (depth : Nat) (a : PcValue) : Nat := wordsLeft a * stepsPerWord (16 - depth)

/-- The activations below the current one, each of which resumes at its return address. -/
def heldPotential (s : State) (depth : Nat) : Nat :=
  ∑ j ∈ Finset.range depth, levelPotential j (readSlot (Fin.ofNat 16 j) s)

/-- An upper bound on the steps a Running core takes without ending the run. -/
def potential (s : State) : Nat := heldPotential s s.sp.val + levelPotential s.sp.val s.pc

theorem wordsLeft_le (a : PcValue) : wordsLeft a ≤ 2048 := by
  rw [wordsLeft, Config.memSize]
  omega

/-- In bounds the advance of `pc` uses up one word. -/
theorem wordsLeft_advancePc {s : State} (hpc : s.pc.val ≤ Config.maxFetch) :
    wordsLeft s.pc = wordsLeft (advancePc s).pc + 1 := by
  rw [wordsLeft, wordsLeft, advancePc_val hpc]
  simp only [Config.maxFetch, Config.memSize] at *
  omega

theorem stepsPerWord_pos (d : Nat) : 0 < stepsPerWord d := by
  cases d <;> exact Nat.succ_pos _

theorem stepsPerWord_of_free {k : SlotIx} :
    stepsPerWord (16 - k.val) = 2048 * stepsPerWord (16 - (k.val + 1)) + 1 := by
  obtain ⟨d, hd⟩ : ∃ d, 16 - k.val = d + 1 := ⟨15 - k.val, by omega⟩
  have hd' : 16 - (k.val + 1) = d := by omega
  rw [hd, hd', stepsPerWord]

theorem levelPotential_le (depth : Nat) (a : PcValue) :
    levelPotential depth a ≤ 2048 * stepsPerWord (16 - depth) :=
  Nat.mul_le_mul_right _ (wordsLeft_le a)

/-- The word of a CALL accounts for the whole activation it opens. -/
theorem levelPotential_lt {k : SlotIx} (a : PcValue) :
    levelPotential (k.val + 1) a < stepsPerWord (16 - k.val) := by
  rw [stepsPerWord_of_free]
  exact Nat.lt_succ_of_le (levelPotential_le (k.val + 1) a)

theorem heldPotential_succ (s : State) (k : SlotIx) :
    heldPotential s (k.val + 1) = heldPotential s k.val + levelPotential k.val (readSlot k s) := by
  rw [heldPotential, Finset.sum_range_succ, heldPotential, Fin.ofNat_val_eq_self]

/-- A push leaves the slots below it. -/
theorem heldPotential_pushSlot (k : SlotIx) (v : PcValue) (s : State) :
    heldPotential (pushSlot k v s) k.val = heldPotential s k.val := by
  refine Finset.sum_congr rfl fun j hj => ?_
  have hlt : j < k.val := Finset.mem_range.1 hj
  have hne : Fin.ofNat 16 j ≠ k := by
    rw [Ne, Fin.ext_iff, Fin.val_ofNat]
    omega
  rw [readSlot_pushSlot, if_neg hne]

/-- In bounds the advance of `pc` uses up the steps one word accounts for. -/
theorem potential_advancePc {s : State} (hpc : s.pc.val ≤ Config.maxFetch) :
    potential s = potential (advancePc s) + stepsPerWord (16 - s.sp.val) := by
  have hlevel : levelPotential s.sp.val s.pc =
      levelPotential s.sp.val (advancePc s).pc + stepsPerWord (16 - s.sp.val) := by
    rw [levelPotential, wordsLeft_advancePc hpc, Nat.add_one_mul, levelPotential]
  rw [potential, hlevel, ← Nat.add_assoc]
  rfl

/-- After a push the activation below resumes at the pushed address. -/
theorem potential_push (k : SlotIx) (v a : PcValue) (s : State) :
    potential (setPc a (pushSlot k v s)) =
      heldPotential s k.val + levelPotential k.val v + levelPotential (k.val + 1) a := by
  show heldPotential (pushSlot k v s) (k.val + 1) + levelPotential (k.val + 1) a = _
  rw [heldPotential_succ, heldPotential_pushSlot, readSlot_pushSlot, if_pos rfl]

/-- After a pop the activation below is the current one. -/
theorem potential_pop (k : SlotIx) (s : State) :
    potential (setPc (readSlot k s) (popSlot k s)) = heldPotential s (k.val + 1) :=
  (heldPotential_succ s k).symm

/-! ### Every step that does not end the run uses up potential -/

/-- The advance of `pc` frees the steps its word accounts for. A CALL needs fewer for the whole activation it opens, a
RETURN gives up what is left of its own activation, and an ADD needs none. -/
theorem potential_exec_lt {i : Instr} {s t : State} (h : exec i s = .next t) (ht : t.status = .running) :
    potential t < potential s + stepsPerWord (16 - s.sp.val) := by
  have hpos := stepsPerWord_pos (16 - s.sp.val)
  obtain ⟨-, e⟩ | ⟨-, -, e⟩ | ⟨k, -, hk, e⟩ | ⟨nnn, -, -, e⟩ | ⟨nnn, k, -, hk, e⟩ | ⟨x, y, -, e⟩ :=
    exec_cases i s <;> cases e.symm.trans h
  · cases ht
  · cases ht
  · rw [potential_pop, potential, ← hk]
    omega
  · cases ht
  · rw [potential_push, potential, hk]
    exact Nat.add_lt_add_left (levelPotential_lt _) _
  · exact Nat.lt_add_of_pos_right hpos

theorem potential_step_lt {s t : State} (hrun : s.status = .running) (h : step s = .next t)
    (ht : t.status = .running) : potential t < potential s := by
  obtain ⟨-, rfl⟩ | ⟨i, ⟨-, hpc, -⟩, hexec⟩ | ⟨-, -, rfl⟩ := step_next_cases hrun h
  · cases ht
  · rw [potential_advancePc hpc]
    exact potential_exec_lt hexec ht
  · cases ht

/-! ### The bound -/

/-- At most 17 activations are open at once, each of at most 2048 words. -/
theorem potential_le (s : State) : potential s ≤ ∑ j ∈ Finset.range 17, 2048 * stepsPerWord (16 - j) := by
  calc potential s
      ≤ ∑ j ∈ Finset.range (s.sp.val + 1), 2048 * stepsPerWord (16 - j) := by
        rw [Finset.sum_range_succ]
        exact Nat.add_le_add (Finset.sum_le_sum fun j _ => levelPotential_le j _) (levelPotential_le _ _)
    _ ≤ ∑ j ∈ Finset.range 17, 2048 * stepsPerWord (16 - j) :=
        Finset.sum_le_sum_of_subset (Finset.range_mono s.sp.isLt)

theorem potential_lt (s : State) : potential s + 1 < 2 * 2048 ^ 17 := by
  have hsum : ∑ j ∈ Finset.range 17, 2048 * stepsPerWord (16 - j) + 1 < 2 * 2048 ^ 17 := by
    simp [Finset.sum_range_succ, stepsPerWord]
  exact Nat.lt_of_le_of_lt (Nat.succ_le_succ (potential_le s)) hsum

/-! ### The end of a run -/

theorem ended_of_step {s t : State} (hrun : s.status = .running) (h : step s = .next t)
    (ht : t.status ≠ .running) : Ended t := by
  obtain he | ⟨he, -⟩ | he := step_status_cases hrun h
  · exact absurd he ht
  · exact .inl he
  · exact .inr he

/-- A run ends after at most one step more than its potential. -/
theorem exists_runSteps_ended {s : State} (hrun : s.status = .running) :
    ∃ n t, n ≤ potential s + 1 ∧ runSteps n s = .next t ∧ Ended t := by
  induction hp : potential s using Nat.strong_induction_on generalizing s with
  | _ p ih =>
    obtain ⟨t, h⟩ := step_total s
    by_cases ht : t.status = .running
    · have hlt : potential t < p := hp ▸ potential_step_lt hrun h ht
      obtain ⟨n, u, hn, hu, hend⟩ := ih (potential t) hlt ht rfl
      exact ⟨n + 1, u, by omega, (runSteps_succ h n).trans hu, hend⟩
    · exact ⟨1, t, by omega, runSteps_succ h 0, ended_of_step hrun h ht⟩

/-! ### The statements -/

/-- Settles O49: the CALL stores its return address in slot `sp`, which no step in between writes, and the RETURN pops
that slot. -/
theorem returnResumesAfterItsCall : Obligations.ReturnResumesAfterItsCall := by
  intro nnn n s s1 s2 hcall hfree h1 habove hret hsp2
  obtain ⟨k, hk⟩ : ∃ k : SlotIx, s.sp.val = k.val := ⟨⟨s.sp.val, hfree⟩, rfl⟩
  rw [hk] at habove hsp2
  obtain ⟨-, hpc, -⟩ := id hcall
  have hpushed : readSlot k s1 = (advancePc s).pc := by
    cases (step_call hcall hk).symm.trans h1
    rw [readSlot_congr (setPc_stk ..), readSlot_pushSlot, if_pos rfl]
  refine ⟨_, step_ret hret hsp2, ?_, Fin.ext hk.symm⟩
  rw [setPc_pc, habove.readSlot_eq, hpushed, advancePc_val hpc]

/-- Settles O50: each step that does not end the run lowers the potential, which is below the bound in every state. -/
theorem everyRunEnds : Obligations.EveryRunEnds := by
  intro s _ hrun
  obtain ⟨n, t, hn, h, hend⟩ := exists_runSteps_ended hrun
  exact ⟨n, t, Nat.lt_of_le_of_lt hn (potential_lt s), h, hend⟩

end Sys2Proof.Machine
end
